-- ==== Sys2Proof/Word.lean ====
section
/-! DEFINITION. The word types of the block: every value it holds is an unsigned integer (spec/40_commands.md R112). -/

namespace Sys2Proof

/-- A `u32`: an H word, a working register, a command word, a bus word (00_scope.md R5, R6). -/
abbrev Word := BitVec 32

/-- A `u8`: a byte of BLK or HEX (00_scope.md R8). -/
abbrev Byte := BitVec 8

/-- A `u64`: MLEN and the length field (10_state.md R33, 41_padder.md R132). -/
abbrev DWord := BitVec 64

end Sys2Proof
end

