-- ==== Sys2Proof/Config.lean ====
section
/-! DEFINITION. What is fixed for one block: the open parameter HASH_BASE, and the closed name sets of its
algorithms and command errors. -/

namespace Sys2Proof

/-- HASH_BASE, the host address of the window's first byte: an OPEN parameter of the platform (00_scope.md R5,
20_memory.md R50). It has no body, so that no proof can rest on a number for it (log 7). -/
opaque Config.hashBase : Nat

/-- The three algorithms; their ALG codes are 0, 1, 2 in this order (00_scope.md R2). Code 3 is no algorithm and
is never held (10_state.md R30; log 13). -/
inductive Alg where
  | md5
  | sha1
  | sha256
deriving DecidableEq, Repr

/-- The command errors, codes 1 to 5 of STATUS.ERR in this order (60_exceptions.md R251). Code 0, no error, is
`none` where an error may be absent; codes 6 to 15 are never written (log 13). -/
inductive CmdError where
  | illegalOp
  | reservedField
  | badAlg
  | sequence
  | length
deriving DecidableEq, Repr

end Sys2Proof
end

