-- ==== Sys2Proof/Syntax.lean ====
section
/-! DEFINITION. The commands of the block, one constructor per row of spec/opcode_table.json. -/

namespace Sys2Proof

/-- A decoded command word (30_encoding.md R82). Only FINAL has an operand. -/
inductive Instr where
  /-- NOP, 0x00000000 (40_commands.md R102). -/
  | nop
  /-- INIT.MD5, 0x00000001 (R104). -/
  | initMd5
  /-- INIT.SHA1, 0x00000011 (R105). -/
  | initSha1
  /-- INIT.SHA256, 0x00000021 (R106). -/
  | initSha256
  /-- COMPRESS, 0x00000002 (R107). -/
  | compress
  /-- FINAL n, 0x00000003 | n << 8: `n` tail bytes stand in BLK (R108; log 11). -/
  | final (n : Nat)
  /-- HEX, 0x00000004 (R109). -/
  | hex
deriving DecidableEq, Repr

end Sys2Proof
end

