-- ==== Sys2Proof/WellFormed.lean ====
section
/-! DEFINITION. Which commands have an encoding. -/

namespace Sys2Proof

/-- The operand of FINAL is the 6-bit field N, so it is a count in 0..63 (30_encoding.md R81); an assembler
rejects `FINAL n` with n > 63 (R89). No other command has an operand to check. -/
def Instr.wellFormed : Instr → Bool
  | .nop => true
  | .initMd5 => true
  | .initSha1 => true
  | .initSha256 => true
  | .compress => true
  | .final n => decide (n ≤ 63)
  | .hex => true

end Sys2Proof
end

