-- ==== Sys2Proof/Decode.lean ====
section
/-! DEFINITION. The command decoder, total on all 2^32 words, and after it the encoder (spec/30_encoding.md). -/

namespace Sys2Proof

/-- What decoding a word gives: a command, or the error the word raises (30_encoding.md R83). -/
inductive Decoded where
  | cmd (i : Instr)
  | err (e : CmdError)
deriving DecidableEq, Repr

/-- OP, bits 3:0 (30_encoding.md R80). -/
def opField (w : Word) : BitVec 4 := w.extractLsb' 0 4

/-- ALG, bits 5:4 (30_encoding.md R80). -/
def algField (w : Word) : BitVec 2 := w.extractLsb' 4 2

/-- N, bits 13:8 (30_encoding.md R80). -/
def nField (w : Word) : BitVec 6 := w.extractLsb' 8 6

/-- The mask of the always-reserved bits, 31:14 and 7:6 (30_encoding.md R80). -/
def reservedMask : Word := 0xFFFFC0C0

/-- The command of a word whose fields have passed the checks of R83 (the OP values of R82). -/
def commandOf (op : BitVec 4) (alg : BitVec 2) (n : BitVec 6) : Instr :=
  match op.toNat with
  | 0 => .nop
  | 1 => match alg.toNat with
    | 0 => .initMd5
    | 1 => .initSha1
    | _ => .initSha256
  | 2 => .compress
  | 3 => .final n.toNat
  | _ => .hex

/-- The decoder: the checks of R83, the first that applies decides. -/
def decode (w : Word) : Decoded :=
  if 5 ≤ (opField w).toNat then .err .illegalOp
  else if w &&& reservedMask ≠ 0 then .err .reservedField
  else if opField w ≠ 1 ∧ algField w ≠ 0 then .err .reservedField
  else if opField w ≠ 3 ∧ nField w ≠ 0 then .err .reservedField
  else if opField w = 1 ∧ algField w = 3 then .err .badAlg
  else .cmd (commandOf (opField w) (algField w) (nField w))

/-- The instruction the decoder reads from a row's word of `nbits` bits: the word is the datum of one CMD write,
numbered as the opcode table numbers it (30_encoding.md R80, R88), with every bit from `nbits` up at 0. -/
def decodeTableWord (nbits w : Nat) : Option Instr :=
  match decode (BitVec.ofNat 32 (w % 2 ^ nbits)) with
  | .cmd i => some i
  | .err _ => none

/-- The command word an assembler writes (30_encoding.md R89). -/
def encode : Instr → Word
  | .nop => 0x00000000
  | .initMd5 => 0x00000001
  | .initSha1 => 0x00000011
  | .initSha256 => 0x00000021
  | .compress => 0x00000002
  | .final n => (0x00000003 : Word) ||| (BitVec.ofNat 32 n <<< 8)
  | .hex => 0x00000004

/-- A row of the opcode map: `w` is an instruction of the row when `w &&& mask = pattern` (30_encoding.md R82). -/
structure Row where
  mnemonic : String
  pattern : Word
  mask : Word
deriving DecidableEq, Repr

/-- The row of each command (30_encoding.md R82, second table). -/
def rowOf : Instr → Row
  | .nop => ⟨"NOP", 0x00000000, 0xFFFFFFFF⟩
  | .initMd5 => ⟨"INIT.MD5", 0x00000001, 0xFFFFFFFF⟩
  | .initSha1 => ⟨"INIT.SHA1", 0x00000011, 0xFFFFFFFF⟩
  | .initSha256 => ⟨"INIT.SHA256", 0x00000021, 0xFFFFFFFF⟩
  | .compress => ⟨"COMPRESS", 0x00000002, 0xFFFFFFFF⟩
  | .final _ => ⟨"FINAL", 0x00000003, 0xFFFFC0FF⟩
  | .hex => ⟨"HEX", 0x00000004, 0xFFFFFFFF⟩

end Sys2Proof
end

