-- ==== Sys2Proof/Machine/State.lean ====
section
/-! DEFINITION. The state of the block, all of spec/10_state.md R20, with the events still to come, the reasons a
step can stop, and the state after reset. -/

namespace Sys2Proof.Machine

/-- STATUS.STATE, the phase of the current message: codes 0, 1, 2 in this order; 3 is never held (10_state.md
R29; log 13). -/
inductive Phase where
  | idle
  | absorb
  | done
deriving DecidableEq, Repr

/-- The hash state registers H[0..7] (10_state.md R21). -/
structure HashRegs where
  h0 : Word
  h1 : Word
  h2 : Word
  h3 : Word
  h4 : Word
  h5 : Word
  h6 : Word
  h7 : Word
deriving DecidableEq, Repr

/-- The byte storage of the window: (window offset, byte) pairs in rising order of offset, none of them 0x00, which
is what an unlisted offset reads as (10_state.md R36; log 6). BLK stands at offsets 0x40 to 0x7F and HEX at 0x80
to 0xBF (20_memory.md R51). -/
abbrev Memory := List Host.Cell

/-- The width of a bus access: 1, 2 or 4 bytes (20_memory.md R52). -/
inductive Width where
  | byte
  | half
  | word
deriving DecidableEq, Repr

/-- What a host access asks: `MemRead(off, n)` or `MemWrite(off, n, v)` (00_scope.md R9). Of `v` only the lowest
8n bits are carried (log 9). -/
inductive BusOp where
  | read (n : Width)
  | write (n : Width) (v : Word)
deriving DecidableEq, Repr

/-- One host access. `rel` is the host address less HASH_BASE; 0 to 0xFF is the window (20_memory.md R50; log 7). -/
structure Access where
  rel : Int
  op : BusOp
deriving DecidableEq, Repr

/-- An event of the run: a host access takes effect, the latched command is let complete, or reset is asserted
and released (20_memory.md R63, 40_commands.md R100, 70_reset_and_hazards.md R280; log 1). -/
inductive Input where
  | access (a : Access)
  | complete
  | reset
deriving DecidableEq, Repr

/-- What the block last answered on the bus: nothing since reset, not selected (an address outside the window),
a write taken, or the data of a read of width `n`, zero-extended (log 8). -/
inductive Response where
  | none
  | unselected
  | written
  | data (n : Width) (v : Word)
deriving DecidableEq, Repr

/-- The reasons the run stops (60_exceptions.md R254). Both are faults of the host's run; the block changes no
state and records nothing in STATUS.ERR. -/
inductive Fault where
  /-- BUS_ERROR: raised by a bus access that is not Legal, misaligned or of a width the location does not take
  (20_memory.md R53). Safe: the spec names this fault. -/
  | busError
  /-- HAZARD_BUSY: raised by a legal access other than a 32-bit STATUS read while BUSY = 1, whose effect in the
  hardware is unpredictable (70_reset_and_hazards.md R284). Safe: the spec names this fault. -/
  | hazardBusy
deriving DecidableEq, Repr

/-- The reasons a step can have no meaning. -/
inductive Refusal where
  /-- An instruction with no meaning yet, by its mnemonic. Raised by nothing: every row of the opcode table has
  its meaning. Safe. -/
  | notModelled (mnemonic : String)
deriving DecidableEq, Repr

/-- The block's state (10_state.md R20), and the model's own two fields `inputs` and `response`. -/
structure State where
  /-- H[0..7] (R21). -/
  hash : HashRegs
  /-- BLK[0..63] and HEX[0..63] (R25, R26), by window offset. -/
  mem : Memory
  /-- MLEN, the count of message bytes absorbed (R33). -/
  mlen : DWord
  /-- STATUS.BUSY (R28): a command is latched and has not completed. -/
  busy : Bool
  /-- STATUS.STATE (R29). -/
  phase : Phase
  /-- STATUS.ALG (R30). -/
  alg : Alg
  /-- STATUS.ERR (R31): the first command error since the last successful INIT or reset; `none` is code 0. -/
  err : Option CmdError
  /-- STATUS.HEXV (R32; log 3). -/
  hexv : Bool
  /-- CMDL, the latched command word (R27); it matters only while BUSY = 1, and is 0 otherwise (log 5). -/
  cmdl : Word
  /-- The model's own: the events still to come, in the order they take effect (log 1). -/
  inputs : List Input
  /-- The model's own: the last answer on the bus (log 8). -/
  response : Response
deriving DecidableEq, Repr

/-- The state after reset (10_state.md R36): every element 0, IDLE, no latched command; no event to come and
nothing answered yet. -/
def State.reset : State where
  hash := ⟨0, 0, 0, 0, 0, 0, 0, 0⟩
  mem := []
  mlen := 0
  busy := false
  phase := .idle
  alg := .md5
  err := none
  hexv := false
  cmdl := 0
  inputs := []
  response := .none

end Sys2Proof.Machine
end

