-- ==== Sys2Proof/Machine/Ops.lean ====
section
/-! DEFINITION. The named operations over the block's storage and status: reading and writing the byte storage,
recording a command error, issuing and retiring a command, and reset. -/

namespace Sys2Proof.Machine

/-! ## The byte storage -/

/-- What an offset that is not listed reads as: the reset contents of BLK and HEX (10_state.md R36; log 6). -/
def Memory.unlisted : Byte := 0

/-- The byte at a window offset. -/
def Memory.read : Memory → Nat → Byte
  | [], _ => Memory.unlisted
  | (k, c) :: m, a => if k = a then c else Memory.read m a

/-- Writes one byte, keeping the canonical form: writing what an unlisted offset reads as removes the entry. -/
def Memory.write : Memory → Nat → Byte → Memory
  | [], a, b => if b = Memory.unlisted then [] else [(a, b)]
  | (k, c) :: m, a, b =>
    if a < k then (if b = Memory.unlisted then (k, c) :: m else (a, b) :: (k, c) :: m)
    else if a = k then (if b = Memory.unlisted then m else (a, b) :: m)
    else (k, c) :: Memory.write m a b

/-- The `n` bytes from offset `a` up, lowest offset first. -/
def Memory.readBytes (m : Memory) (a : Nat) : Nat → List Byte
  | 0 => []
  | n + 1 => Memory.read m a :: Memory.readBytes m (a + 1) n

/-- Writes bytes from offset `a` up, the first at the lowest offset. -/
def Memory.writeBytes (m : Memory) (a : Nat) : List Byte → Memory
  | [] => m
  | b :: bs => Memory.writeBytes (Memory.write m a b) (a + 1) bs

/-- The canonical form from offset `lo` up: offsets strictly rise and no entry is what an unlisted offset reads
as. -/
def Memory.wfFrom (lo : Nat) : Memory → Bool
  | [] => true
  | (k, b) :: m => decide (lo ≤ k) && decide (b ≠ Memory.unlisted) && Memory.wfFrom (k + 1) m

/-- The canonical form of the byte storage. -/
def Memory.wf (m : Memory) : Bool := Memory.wfFrom 0 m

/-- Every listed offset is one of BLK's or HEX's, 0x40 to 0xBF (20_memory.md R51). -/
def Memory.inBuffers (m : Memory) : Bool := m.all fun c => decide (0x40 ≤ c.1) && decide (c.1 ≤ 0xBF)

/-- The window offset of BLK[0] (20_memory.md R51). -/
def blkBase : Nat := 0x40

/-- The window offset of HEX[0] (20_memory.md R51). -/
def hexBase : Nat := 0x80

/-- BLK[0..63] (10_state.md R25). -/
def State.blk (s : State) : List Byte := Memory.readBytes s.mem blkBase 64

/-- HEX[0..63] (10_state.md R26). -/
def State.hex (s : State) : List Byte := Memory.readBytes s.mem hexBase 64

/-- Writes HEX[0..] with the given bytes. -/
def writeHex (bs : List Byte) (m : Memory) : Memory := Memory.writeBytes m hexBase bs

/-! ## Command errors: the block's only exceptions -/

/-- `raise Error(code)` (60_exceptions.md R252): STATUS.ERR keeps the first error, and nothing else changes. The
block has no trap entry (R258) and no return from an error (R255). -/
def raiseError (e : CmdError) (s : State) : State :=
  match s.err with
  | none => { s with err := some e }
  | some _ => s

/-! ## Issue, completion and reset -/

/-- Issue: `CMDL <- v; BUSY <- 1` (40_commands.md R100, step 1). -/
def latchCommand (v : Word) (s : State) : State := { s with cmdl := v, busy := true }

/-- The end of a completion: `CMDL <- none; BUSY <- 0` (40_commands.md R100, step 2; log 5). -/
def retire (s : State) : State := { s with cmdl := 0, busy := false }

/-- Reset: every element of the block takes its reset value and a pending command is abandoned with no effect
(70_reset_and_hazards.md R280); the events after the reset still come (log 1). -/
def resetBlock (s : State) : State := { State.reset with inputs := s.inputs }

end Sys2Proof.Machine
end

