-- ==== Sys2Proof/Machine/Operands.lean ====
section
/-! DEFINITION. The operands of the commands and of the bus: byte orders, rotations, the hash state registers, the
block and tail operands, and the sizes that depend on the algorithm. -/

namespace Sys2Proof.Machine

/-! ## Word operators (spec/00_scope.md R7; log 15) -/

/-- `rotl(x, n)` for `0 ≤ n ≤ 31` (R7). -/
def rotl (x : Word) (n : Nat) : Word := (x <<< n) ||| (x >>> (32 - n))

/-- `rotr(x, n) = rotl(x, (32 - n) mod 32)` (R7). -/
def rotr (x : Word) (n : Nat) : Word := rotl x ((32 - n) % 32)

/-! ## Byte orders (spec/00_scope.md R8; log 15) -/

/-- `LE32(b0, b1, b2, b3)`: the first byte is the least significant (R8). -/
def le32 (b0 b1 b2 b3 : Byte) : Word :=
  b0.setWidth 32 ||| (b1.setWidth 32 <<< 8) ||| (b2.setWidth 32 <<< 16) ||| (b3.setWidth 32 <<< 24)

/-- `BE32(b0, b1, b2, b3)`: the first byte is the most significant (R8). -/
def be32 (b0 b1 b2 b3 : Byte) : Word :=
  (b0.setWidth 32 <<< 24) ||| (b1.setWidth 32 <<< 16) ||| (b2.setWidth 32 <<< 8) ||| b3.setWidth 32

/-- `LE32bytes(w)` (R8). -/
def le32Bytes (w : Word) : List Byte :=
  [w.extractLsb' 0 8, w.extractLsb' 8 8, w.extractLsb' 16 8, w.extractLsb' 24 8]

/-- `BE32bytes(w)` (R8). -/
def be32Bytes (w : Word) : List Byte :=
  [w.extractLsb' 24 8, w.extractLsb' 16 8, w.extractLsb' 8 8, w.extractLsb' 0 8]

/-- `LE64bytes(v)` (R8). -/
def le64Bytes (v : DWord) : List Byte :=
  [v.extractLsb' 0 8, v.extractLsb' 8 8, v.extractLsb' 16 8, v.extractLsb' 24 8,
   v.extractLsb' 32 8, v.extractLsb' 40 8, v.extractLsb' 48 8, v.extractLsb' 56 8]

/-- `BE64bytes(v)`: the same bytes in reverse order (R8). -/
def be64Bytes (v : DWord) : List Byte :=
  [v.extractLsb' 56 8, v.extractLsb' 48 8, v.extractLsb' 40 8, v.extractLsb' 32 8,
   v.extractLsb' 24 8, v.extractLsb' 16 8, v.extractLsb' 8 8, v.extractLsb' 0 8]

/-- The message words of a block read four bytes at a time, little-endian (42_md5.md R151). -/
def leWords : List Byte → List Word
  | b0 :: b1 :: b2 :: b3 :: rest => le32 b0 b1 b2 b3 :: leWords rest
  | _ => []

/-- The message words of a block read four bytes at a time, big-endian (43_sha1.md R181, 44_sha256.md R202). -/
def beWords : List Byte → List Word
  | b0 :: b1 :: b2 :: b3 :: rest => be32 b0 b1 b2 b3 :: beWords rest
  | _ => []

/-! ## Sizes (spec/00_scope.md R2, R5) -/

/-- NW(alg), the state words an algorithm uses (R2). -/
def nw : Alg → Nat
  | .md5 => 4
  | .sha1 => 5
  | .sha256 => 8

/-- DL(alg), the digest length in bytes (R2). -/
def dl : Alg → Nat
  | .md5 => 16
  | .sha1 => 20
  | .sha256 => 32

/-- MSG_MAX, the largest message length in bytes (R5, 41_padder.md R137). -/
def msgMax : Nat := 2 ^ 61 - 1

/-! ## The hash state registers (spec/10_state.md R21) -/

/-- H[0..7] in order. -/
def HashRegs.toList (h : HashRegs) : List Word := [h.h0, h.h1, h.h2, h.h3, h.h4, h.h5, h.h6, h.h7]

/-- H[k], for k in 0..7. -/
def HashRegs.get (h : HashRegs) (k : Nat) : Word := h.toList.getD k 0

/-! ## Block operands (spec/40_commands.md R107, R108) -/

/-- The operand of COMPRESS: all 64 bytes of BLK (R107). -/
def blockOperand (s : State) : List Byte := s.blk

/-- The operand of FINAL n: BLK[0..n-1]; BLK[n..63] is ignored (R108). -/
def tailOperand (n : Nat) (s : State) : List Byte := s.blk.take n

end Sys2Proof.Machine
end

