-- ==== Sys2Proof/Machine/Flags.lean ====
section
/-! DEFINITION. The STATUS register and its fields, the block's only flags (spec/10_state.md R28, R35), and the
conditions the commands test. -/

namespace Sys2Proof.Machine

/-- The code of STATUS.STATE, bits 2:1 (10_state.md R29). -/
def phaseCode : Phase → BitVec 2
  | .idle => 0
  | .absorb => 1
  | .done => 2

/-- The code of STATUS.ALG, bits 5:4 (10_state.md R30). -/
def algCode : Alg → BitVec 2
  | .md5 => 0
  | .sha1 => 1
  | .sha256 => 2

/-- The code of STATUS.ERR, bits 11:8 (60_exceptions.md R251). -/
def errCode : Option CmdError → BitVec 4
  | none => 0
  | some .illegalOp => 1
  | some .reservedField => 2
  | some .badAlg => 3
  | some .sequence => 4
  | some .length => 5

/-- A one-bit field as a bit. -/
def flagBit : Bool → BitVec 1
  | false => 0
  | true => 1

/-- `STATUS = BUSY | STATE<<1 | ALG<<4 | ERR<<8 | HEXV<<12` (10_state.md R28); every other bit reads 0. -/
def statusWord (s : State) : Word :=
  (flagBit s.busy).setWidth 32 ||| ((phaseCode s.phase).setWidth 32 <<< 1) |||
  ((algCode s.alg).setWidth 32 <<< 4) ||| ((errCode s.err).setWidth 32 <<< 8) |||
  ((flagBit s.hexv).setWidth 32 <<< 12)

/-- `MLEN + k > MSG_MAX`, compared as exact numbers (40_commands.md R107; log 10). -/
def passesLimit (mlen : DWord) (k : Nat) : Bool := decide (msgMax < mlen.toNat + k)

end Sys2Proof.Machine
end

