-- ==== Sys2Proof/Machine/Bus.lean ====
section
/-! DEFINITION. Host bus accesses: the address decode, the legality test, MemRead and MemWrite (spec/20_memory.md
R50 to R60). -/

namespace Sys2Proof.Machine

/-- The width of an access in bytes (R52). -/
def widthBytes : Width → Nat
  | .byte => 1
  | .half => 2
  | .word => 4

/-- The width an access asks for (R52). -/
def BusOp.width : BusOp → Width
  | .read n => n
  | .write n _ => n

/-- A host address as the model's accesses carry it: less HASH_BASE (R50; log 7). -/
def relOfAddress (address : Nat) : Int := (address : Int) - (Config.hashBase : Int)

/-- The window offset of an access, if it is inside the window: the block decodes no other address (R50). -/
def windowOffset (rel : Int) : Option Nat := if 0 ≤ rel ∧ rel ≤ 0xFF then some rel.toNat else none

/-- `Legal(off, n)` (R52). -/
def legal (off : Nat) (n : Width) : Bool :=
  decide (off % widthBytes n = 0) &&
    (decide (widthBytes n = 4) || (decide (0x40 ≤ off) && decide (off ≤ 0xBF)))

/-- The bytes a value puts on the lanes 0 to n-1, lane i carrying bits 8i+7 : 8i (R58). -/
def lanes : Nat → Word → List Byte
  | 0, _ => []
  | k + 1, v => v.extractLsb' 0 8 :: lanes k (v >>> 8)

/-- The value of the bytes on the lanes: the sum of `B[j + i] << 8i` (R57, `LEn`). -/
def assemble : List Byte → Word
  | [] => 0
  | b :: bs => b.setWidth 32 ||| (assemble bs <<< 8)

/-- What a read gives: the data, zero-extended to 32 bits, or a host fault. -/
inductive ReadResult where
  | data (v : Word)
  | fault (f : Fault)
deriving DecidableEq, Repr

/-- The value a legal read of the window returns (R57, from `off = 0x00` on; the map of R51). -/
def windowValue (off : Nat) (n : Width) (s : State) : Word :=
  if off = 0x00 then 0
  else if off = 0x04 then statusWord s
  else if off = 0x08 then s.mlen.extractLsb' 0 32
  else if off = 0x0C then s.mlen.extractLsb' 32 32
  else if 0x20 ≤ off ∧ off ≤ 0x3F then s.hash.get ((off - 0x20) / 4)
  else if 0x40 ≤ off ∧ off ≤ 0xBF then assemble (Memory.readBytes s.mem off (widthBytes n))
  else 0

/-- `MemRead(off, n)` (R57). -/
def memRead (off : Nat) (n : Width) (s : State) : ReadResult :=
  if legal off n = false then .fault .busError
  else if s.busy = true ∧ ¬(off = 0x04 ∧ n = .word) then .fault .hazardBusy
  else .data (windowValue off n s)

/-- `MemWrite(off, n, v)` (R54). -/
def memWrite (off : Nat) (n : Width) (v : Word) (s : State) : Host.Outcome State Fault Refusal :=
  if legal off n = false then .fault .busError
  else if s.busy = true then .fault .hazardBusy
  else if off = 0x00 then .next (latchCommand v s)
  else if 0x40 ≤ off ∧ off ≤ 0x7F then
    .next { s with mem := Memory.writeBytes s.mem off (lanes (widthBytes n) v) }
  else .next s

/-- One host access: an address outside the window is not the block's (R50; log 7); a read answers its data and
changes nothing else (R57). -/
def busAccess (a : Access) (s : State) : Host.Outcome State Fault Refusal :=
  match windowOffset a.rel with
  | none => .next { s with response := .unselected }
  | some off =>
    match a.op with
    | .read n =>
      match memRead off n s with
      | .data v => .next { s with response := .data n v }
      | .fault f => .fault f
    | .write n v => memWrite off n v { s with response := .written }

end Sys2Proof.Machine
end

