-- ==== Sys2Proof/Machine/Padder.lean ====
section
/-! DEFINITION. The message padder (spec/41_padder.md): the tail padder of FINAL, and the whole-message padder of
the source that it splits. -/

namespace Sys2Proof.Machine

/-- The length field, the message length in bits as a u64: little-endian for MD5, big-endian for SHA-1 and SHA-256
(R132). -/
def lenField (alg : Alg) (len : Nat) : List Byte :=
  match alg with
  | .md5 => le64Bytes (BitVec.ofNat 64 (8 * len))
  | .sha1 => be64Bytes (BitVec.ofNat 64 (8 * len))
  | .sha256 => be64Bytes (BitVec.ofNat 64 (8 * len))

/-- `z = (55 - len) mod 64`, the number of zero bytes (R131), without a negative intermediate. -/
def zeroCount (len : Nat) : Nat := (119 - len % 64) % 64

/-- `Pad(alg, m)`, the source's padding of a whole message (R130). -/
def pad (alg : Alg) (m : List Byte) : List Byte :=
  m ++ [0x80] ++ List.replicate (zeroCount m.length) 0x00 ++ lenField alg m.length

/-- The bytes `P` of the tail padder, before they are cut into blocks (R134). -/
def padTailBytes (alg : Alg) (t : List Byte) (len : Nat) : List Byte :=
  t ++ [0x80] ++ List.replicate (zeroCount t.length) 0x00 ++ lenField alg len

/-- `PadTail(alg, t, L)`: one 64-byte block for a tail of at most 55 bytes, else two (R134). -/
def padTail (alg : Alg) (t : List Byte) (len : Nat) : List (List Byte) :=
  let p := padTailBytes alg t len
  if t.length ≤ 55 then [p.take 64] else [p.take 64, (p.drop 64).take 64]

/-- The first `k` 64-byte blocks of a byte sequence, in order (00_scope.md R10). -/
def blocksOf : Nat → List Byte → List (List Byte)
  | 0, _ => []
  | k + 1, m => m.take 64 :: blocksOf k (m.drop 64)

end Sys2Proof.Machine
end

