-- ==== Sys2Proof/Machine/HexEncoder.lean ====
section
/-! DEFINITION. The hex encoder (spec/45_hex_encoder.md). -/

namespace Sys2Proof.Machine

/-- `Serialize(alg, H)`: the digest bytes, little-endian words for MD5, big-endian for SHA-1 and SHA-256 (R230). -/
def serialize (alg : Alg) (h : HashRegs) : List Byte :=
  match alg with
  | .md5 => (h.toList.take 4).flatMap le32Bytes
  | .sha1 => (h.toList.take 5).flatMap be32Bytes
  | .sha256 => (h.toList.take 8).flatMap be32Bytes

/-- `HexDigit(v)`, the ASCII code of a lowercase hexadecimal digit (R231; log 15). -/
def hexDigit (v : BitVec 4) : Byte :=
  if v.toNat ≤ 9 then 0x30 + v.setWidth 8 else 0x61 + (v.setWidth 8 - 10)

/-- `HexEncode(D)`: two characters per byte, the high nibble first (R232). -/
def hexEncode (d : List Byte) : List Byte :=
  d.flatMap fun b => [hexDigit (b.extractLsb' 4 4), hexDigit (b.extractLsb' 0 4)]

/-- `HexBuffer(alg, H)`: the digest characters and 0x00 bytes up to 64 (R233). -/
def hexBuffer (alg : Alg) (h : HashRegs) : List Byte :=
  hexEncode (serialize alg h) ++ List.replicate (64 - 2 * dl alg) 0x00

end Sys2Proof.Machine
end

