-- ==== Sys2Proof/Machine/Md5.lean ====
section
/-! DEFINITION. The MD5 compressor (spec/42_md5.md). -/

namespace Sys2Proof.Machine

/-- IV(0), with the words MD5 does not use at 0 (R150, 40_commands.md R103). -/
def md5IV : HashRegs := ⟨0x67452301, 0xefcdab89, 0x98badcfe, 0x10325476, 0, 0, 0, 0⟩

/-- The round constants K[0..63] (R152). -/
def md5K : List Word :=
  [0xd76aa478, 0xe8c7b756, 0x242070db, 0xc1bdceee, 0xf57c0faf, 0x4787c62a, 0xa8304613, 0xfd469501] ++
  [0x698098d8, 0x8b44f7af, 0xffff5bb1, 0x895cd7be, 0x6b901122, 0xfd987193, 0xa679438e, 0x49b40821] ++
  [0xf61e2562, 0xc040b340, 0x265e5a51, 0xe9b6c7aa, 0xd62f105d, 0x02441453, 0xd8a1e681, 0xe7d3fbc8] ++
  [0x21e1cde6, 0xc33707d6, 0xf4d50d87, 0x455a14ed, 0xa9e3e905, 0xfcefa3f8, 0x676f02d9, 0x8d2a4c8a] ++
  [0xfffa3942, 0x8771f681, 0x6d9d6122, 0xfde5380c, 0xa4beea44, 0x4bdecfa9, 0xf6bb4b60, 0xbebfbc70] ++
  [0x289b7ec6, 0xeaa127fa, 0xd4ef3085, 0x04881d05, 0xd9d4d039, 0xe6db99e5, 0x1fa27cf8, 0xc4ac5665] ++
  [0xf4292244, 0x432aff97, 0xab9423a7, 0xfc93a039, 0x655b59c3, 0x8f0ccc92, 0xffeff47d, 0x85845dd1] ++
  [0x6fa87e4f, 0xfe2ce6e0, 0xa3014314, 0x4e0811a1, 0xf7537e82, 0xbd3af235, 0x2ad7d2bb, 0xeb86d391]

/-- S[i], the left-rotate amount of round i: four amounts for each group of 16 rounds, repeating (R153). -/
def md5S (i : Nat) : Nat :=
  if i < 16 then [7, 12, 17, 22].getD (i % 4) 0
  else if i < 32 then [5, 9, 14, 20].getD (i % 4) 0
  else if i < 48 then [4, 11, 16, 23].getD (i % 4) 0
  else [6, 10, 15, 21].getD (i % 4) 0

/-- g(i), the message index of round i (R154). -/
def md5G (i : Nat) : Nat :=
  if i < 16 then i
  else if i < 32 then (5 * i + 1) % 16
  else if i < 48 then (3 * i + 5) % 16
  else (7 * i) % 16

/-- f(i), the mixing function of round i on the working registers b, c, d (R155; log 15). -/
def md5F (i : Nat) (b c d : Word) : Word :=
  if i < 16 then (b &&& c) ||| (~~~b &&& d)
  else if i < 32 then (b &&& d) ||| (c &&& ~~~d)
  else if i < 48 then b ^^^ c ^^^ d
  else c ^^^ (b ||| ~~~d)

/-- The working registers of MD5, local to one compression (R156, 10_state.md R23; log 14). -/
structure Md5Regs where
  a : Word
  b : Word
  c : Word
  d : Word
deriving DecidableEq, Repr

/-- Round i on the message words `m` (R157; log 15). -/
def md5Round (m : List Word) (r : Md5Regs) (i : Nat) : Md5Regs :=
  let t := r.a + md5F i r.b r.c r.d + md5K.getD i 0 + m.getD (md5G i) 0
  ⟨r.d, r.b + rotl t (md5S i), r.b, r.c⟩

/-- The working registers after the first `n` rounds (R156, R157). -/
def md5Rounds (n : Nat) (m : List Word) (r : Md5Regs) : Md5Regs := (List.range n).foldl (md5Round m) r

/-- The feed-forward: the four working registers are added into H[0..3] (R158); H[4..7] pass through (R161). -/
def md5FeedForward (h : HashRegs) (r : Md5Regs) : HashRegs :=
  ⟨h.h0 + r.a, h.h1 + r.b, h.h2 + r.c, h.h3 + r.d, h.h4, h.h5, h.h6, h.h7⟩

/-- `MD5Compress(H, B)` (R159). -/
def md5Compress (h : HashRegs) (block : List Byte) : HashRegs :=
  md5FeedForward h (md5Rounds 64 (leWords block) ⟨h.h0, h.h1, h.h2, h.h3⟩)

end Sys2Proof.Machine
end

