-- ==== Sys2Proof/Machine/Sha1.lean ====
section
/-! DEFINITION. The SHA-1 compressor (spec/43_sha1.md). -/

namespace Sys2Proof.Machine

/-- IV(1), with the words SHA-1 does not use at 0 (R180, 40_commands.md R103). -/
def sha1IV : HashRegs := ⟨0x67452301, 0xEFCDAB89, 0x98BADCFE, 0x10325476, 0xC3D2E1F0, 0, 0, 0⟩

/-- One word of the message expansion: `ws` holds W[0..t-1], and W[t] is added (R182). -/
def sha1Extend (ws : List Word) (t : Nat) : List Word :=
  ws ++ [rotl (ws.getD (t - 3) 0 ^^^ ws.getD (t - 8) 0 ^^^ ws.getD (t - 14) 0 ^^^ ws.getD (t - 16) 0) 1]

/-- The message schedule W[0..79] of a block (R181, R182). -/
def sha1Schedule (block : List Byte) : List Word := (List.range' 16 64).foldl sha1Extend (beWords block)

/-- f(t) on the working registers b, c, d (R183; log 15). -/
def sha1F (t : Nat) (b c d : Word) : Word :=
  if t < 20 then (b &&& c) ||| (~~~b &&& d)
  else if t < 40 then b ^^^ c ^^^ d
  else if t < 60 then (b &&& c) ||| (b &&& d) ||| (c &&& d)
  else b ^^^ c ^^^ d

/-- k(t) (R183; log 15). -/
def sha1K (t : Nat) : Word :=
  if t < 20 then 0x5A827999
  else if t < 40 then 0x6ED9EBA1
  else if t < 60 then 0x8F1BBCDC
  else 0xCA62C1D6

/-- The working registers of SHA-1, local to one compression (R184, 10_state.md R23; log 14). -/
structure Sha1Regs where
  a : Word
  b : Word
  c : Word
  d : Word
  e : Word
deriving DecidableEq, Repr

/-- Round t on the schedule `w` (R185). -/
def sha1Round (w : List Word) (r : Sha1Regs) (t : Nat) : Sha1Regs :=
  let temp := rotl r.a 5 + sha1F t r.b r.c r.d + r.e + sha1K t + w.getD t 0
  ⟨temp, r.a, rotl r.b 30, r.c, r.d⟩

/-- The working registers after the first `n` rounds (R184, R185). -/
def sha1Rounds (n : Nat) (w : List Word) (r : Sha1Regs) : Sha1Regs := (List.range n).foldl (sha1Round w) r

/-- The feed-forward: the five working registers are added into H[0..4] (R186); H[5..7] pass through (R188). -/
def sha1FeedForward (h : HashRegs) (r : Sha1Regs) : HashRegs :=
  ⟨h.h0 + r.a, h.h1 + r.b, h.h2 + r.c, h.h3 + r.d, h.h4 + r.e, h.h5, h.h6, h.h7⟩

/-- `SHA1Compress(H, B)` (R187). -/
def sha1Compress (h : HashRegs) (block : List Byte) : HashRegs :=
  sha1FeedForward h (sha1Rounds 80 (sha1Schedule block) ⟨h.h0, h.h1, h.h2, h.h3, h.h4⟩)

end Sys2Proof.Machine
end

