-- ==== Sys2Proof/Machine/Sha256.lean ====
section
/-! DEFINITION. The SHA-256 compressor (spec/44_sha256.md). -/

namespace Sys2Proof.Machine

/-- IV(2) (R200; log 15). -/
def sha256IV : HashRegs :=
  ⟨0x6a09e667, 0xbb67ae85, 0x3c6ef372, 0xa54ff53a, 0x510e527f, 0x9b05688c, 0x1f83d9ab, 0x5be0cd19⟩

/-- The round constants K[0..63] (R201). -/
def sha256K : List Word :=
  [0x428a2f98, 0x71374491, 0xb5c0fbcf, 0xe9b5dba5, 0x3956c25b, 0x59f111f1, 0x923f82a4, 0xab1c5ed5] ++
  [0xd807aa98, 0x12835b01, 0x243185be, 0x550c7dc3, 0x72be5d74, 0x80deb1fe, 0x9bdc06a7, 0xc19bf174] ++
  [0xe49b69c1, 0xefbe4786, 0x0fc19dc6, 0x240ca1cc, 0x2de92c6f, 0x4a7484aa, 0x5cb0a9dc, 0x76f988da] ++
  [0x983e5152, 0xa831c66d, 0xb00327c8, 0xbf597fc7, 0xc6e00bf3, 0xd5a79147, 0x06ca6351, 0x14292967] ++
  [0x27b70a85, 0x2e1b2138, 0x4d2c6dfc, 0x53380d13, 0x650a7354, 0x766a0abb, 0x81c2c92e, 0x92722c85] ++
  [0xa2bfe8a1, 0xa81a664b, 0xc24b8b70, 0xc76c51a3, 0xd192e819, 0xd6990624, 0xf40e3585, 0x106aa070] ++
  [0x19a4c116, 0x1e376c08, 0x2748774c, 0x34b0bcb5, 0x391c0cb3, 0x4ed8aa4a, 0x5b9cca4f, 0x682e6ff3] ++
  [0x748f82ee, 0x78a5636f, 0x84c87814, 0x8cc70208, 0x90befffa, 0xa4506ceb, 0xbef9a3f7, 0xc67178f2]

/-- `s0(x)` (R203); `>>>` on a word is the logical shift. -/
def sha256SmallS0 (x : Word) : Word := rotr x 7 ^^^ rotr x 18 ^^^ (x >>> 3)

/-- `s1(x)` (R203). -/
def sha256SmallS1 (x : Word) : Word := rotr x 17 ^^^ rotr x 19 ^^^ (x >>> 10)

/-- One word of the message schedule: `ws` holds W[0..t-1], and W[t] is added (R204). -/
def sha256Extend (ws : List Word) (t : Nat) : List Word :=
  ws ++ [ws.getD (t - 16) 0 + sha256SmallS0 (ws.getD (t - 15) 0) + ws.getD (t - 7) 0 +
    sha256SmallS1 (ws.getD (t - 2) 0)]

/-- The message schedule W[0..63] of a block (R202, R204). -/
def sha256Schedule (block : List Byte) : List Word := (List.range' 16 48).foldl sha256Extend (beWords block)

/-- `S1` of the working register e (R205). -/
def sha256BigS1 (e : Word) : Word := rotr e 6 ^^^ rotr e 11 ^^^ rotr e 25

/-- `ch` (R205). -/
def sha256Ch (e f g : Word) : Word := (e &&& f) ^^^ (~~~e &&& g)

/-- `S0` of the working register a (R205). -/
def sha256BigS0 (a : Word) : Word := rotr a 2 ^^^ rotr a 13 ^^^ rotr a 22

/-- `maj` (R205). -/
def sha256Maj (a b c : Word) : Word := (a &&& b) ^^^ (a &&& c) ^^^ (b &&& c)

/-- The working registers of SHA-256, local to one compression (R206, 10_state.md R23; log 14). -/
structure Sha256Regs where
  a : Word
  b : Word
  c : Word
  d : Word
  e : Word
  f : Word
  g : Word
  h : Word
deriving DecidableEq, Repr

/-- Round t on the schedule `w` (R206). -/
def sha256Round (w : List Word) (r : Sha256Regs) (t : Nat) : Sha256Regs :=
  let temp1 := r.h + sha256BigS1 r.e + sha256Ch r.e r.f r.g + sha256K.getD t 0 + w.getD t 0
  let temp2 := sha256BigS0 r.a + sha256Maj r.a r.b r.c
  ⟨temp1 + temp2, r.a, r.b, r.c, r.d + temp1, r.e, r.f, r.g⟩

/-- The working registers after the first `n` rounds (R206). -/
def sha256Rounds (n : Nat) (w : List Word) (r : Sha256Regs) : Sha256Regs :=
  (List.range n).foldl (sha256Round w) r

/-- The feed-forward: all eight working registers are added into H (R207). -/
def sha256FeedForward (h : HashRegs) (r : Sha256Regs) : HashRegs :=
  ⟨h.h0 + r.a, h.h1 + r.b, h.h2 + r.c, h.h3 + r.d, h.h4 + r.e, h.h5 + r.f, h.h6 + r.g, h.h7 + r.h⟩

/-- `SHA256Compress(H, B)` (R208). -/
def sha256Compress (h : HashRegs) (block : List Byte) : HashRegs :=
  sha256FeedForward h
    (sha256Rounds 64 (sha256Schedule block) ⟨h.h0, h.h1, h.h2, h.h3, h.h4, h.h5, h.h6, h.h7⟩)

end Sys2Proof.Machine
end

