-- ==== Sys2Proof/Machine/Commands.lean ====
section
/-! DEFINITION. The meaning of each command (spec/40_commands.md R101 to R109), and the whole-message digest of the
source that the commands split (R110). A meaning says what the command does to the state; the bookkeeping of CMDL
and BUSY around it is the completion's (Machine/Completion.lean). -/

namespace Sys2Proof.Machine

/-! ## Shared operations -/

/-- `IV(alg)`, an eight-word state with the words the algorithm does not use at 0 (R101, R103). -/
def iv : Alg → HashRegs
  | .md5 => md5IV
  | .sha1 => sha1IV
  | .sha256 => sha256IV

/-- `Compress(alg, H, B)` (R101). -/
def compressBlock (alg : Alg) (h : HashRegs) (block : List Byte) : HashRegs :=
  match alg with
  | .md5 => md5Compress h block
  | .sha1 => sha1Compress h block
  | .sha256 => sha256Compress h block

/-- `INIT(alg)` (R103): BLK is not changed. -/
def initWith (alg : Alg) (s : State) : State :=
  { s with
    hash := iv alg
    mem := writeHex (List.replicate 64 0x00) s.mem
    mlen := 0
    phase := .absorb
    alg := alg
    err := none
    hexv := false }

/-- The effect of a COMPRESS that runs: absorb BLK as one block (R107). -/
def absorbBlock (s : State) : State :=
  { s with hash := compressBlock s.alg s.hash (blockOperand s), mlen := s.mlen + 64, hexv := false }

/-- The effect of a FINAL n that runs: absorb the padding block or blocks of the tail (R108; log 10). -/
def absorbTail (n : Nat) (s : State) : State :=
  let len := s.mlen.toNat + n
  { s with
    hash := (padTail s.alg (tailOperand n s) len).foldl (compressBlock s.alg) s.hash
    mlen := BitVec.ofNat 64 len
    phase := .done
    hexv := false }

/-- The effect of a HEX that runs: encode H into HEX (R109). -/
def writeDigest (s : State) : State := { s with mem := writeHex (hexBuffer s.alg s.hash) s.mem, hexv := true }

/-! ## The meanings -/

/-- NOP (R102): no state changes. -/
def execNop (s : State) : Host.Outcome State Fault Refusal := .next s

/-- INIT.MD5 (R104). -/
def execInitMd5 (s : State) : Host.Outcome State Fault Refusal := .next (initWith .md5 s)

/-- INIT.SHA1 (R105). -/
def execInitSha1 (s : State) : Host.Outcome State Fault Refusal := .next (initWith .sha1 s)

/-- INIT.SHA256 (R106). -/
def execInitSha256 (s : State) : Host.Outcome State Fault Refusal := .next (initWith .sha256 s)

/-- COMPRESS (R107): the error lock (60_exceptions.md R256), SEQUENCE, LENGTH, then the block. -/
def execCompress (s : State) : Host.Outcome State Fault Refusal :=
  match s.err with
  | some _ => .next s
  | none =>
    match s.phase with
    | .absorb => if passesLimit s.mlen 64 then .next (raiseError .length s) else .next (absorbBlock s)
    | .idle => .next (raiseError .sequence s)
    | .done => .next (raiseError .sequence s)

/-- FINAL n (R108): the error lock, SEQUENCE, then the padded tail. -/
def execFinal (n : Nat) (s : State) : Host.Outcome State Fault Refusal :=
  match s.err with
  | some _ => .next s
  | none =>
    match s.phase with
    | .absorb => .next (absorbTail n s)
    | .idle => .next (raiseError .sequence s)
    | .done => .next (raiseError .sequence s)

/-- HEX (R109): the error lock, SEQUENCE in IDLE, then the digest. -/
def execHex (s : State) : Host.Outcome State Fault Refusal :=
  match s.err with
  | some _ => .next s
  | none =>
    match s.phase with
    | .idle => .next (raiseError .sequence s)
    | .absorb => .next (writeDigest s)
    | .done => .next (writeDigest s)

/-! ## The source's whole-message engine (R110) -/

/-- The hash state the source's Digest Engine reaches on the message `m`: the IV, then every block of the padded
message compressed in order (R110, 41_padder.md R130). -/
def engineState (alg : Alg) (m : List Byte) : HashRegs :=
  (blocksOf ((pad alg m).length / 64) (pad alg m)).foldl (compressBlock alg) (iv alg)

/-- `digest(alg, m)` as ASCII bytes (R110, 45_hex_encoder.md R232). -/
def digest (alg : Alg) (m : List Byte) : List Byte := hexEncode (serialize alg (engineState alg m))

end Sys2Proof.Machine
end

