-- ==== Sys2Proof/Machine/Dispatch.lean ====
section
/-! DEFINITION. Which meaning each command has: one arm per row of spec/opcode_table.json. -/

namespace Sys2Proof.Machine

def exec (i : Instr) (s : State) : Host.Outcome State Fault Refusal :=
  match i with
  | .nop => Sys2Proof.Machine.execNop s
  | .initMd5 => Sys2Proof.Machine.execInitMd5 s
  | .initSha1 => Sys2Proof.Machine.execInitSha1 s
  | .initSha256 => Sys2Proof.Machine.execInitSha256 s
  | .compress => Sys2Proof.Machine.execCompress s
  | .final n => Sys2Proof.Machine.execFinal n s
  | .hex => Sys2Proof.Machine.execHex s

end Sys2Proof.Machine
end

