-- ==== Sys2Proof/Machine/Completion.lean ====
section
/-! DEFINITION. The completion of the latched command (spec/40_commands.md R100). -/

namespace Sys2Proof.Machine

/-- What a command word does: the error it raises at decode, or its command's meaning (R100, 30_encoding.md R83). -/
def runWord (w : Word) (s : State) : Host.Outcome State Fault Refusal :=
  match decode w with
  | .err e => .next (raiseError e s)
  | .cmd i => exec i s

/-- The end of a completion: a command that answers a next state is retired. -/
def retireOutcome : Host.Outcome State Fault Refusal → Host.Outcome State Fault Refusal
  | .next t => .next (retire t)
  | .fault f => .fault f
  | .refused r => .refused r

/-- `Complete()`, one atomic step, enabled exactly when BUSY = 1 (R100). Where it is not enabled nothing happens
(log 2). -/
def complete (s : State) : Host.Outcome State Fault Refusal :=
  if s.busy then retireOutcome (runWord s.cmdl s) else .next s

/-- The next event takes effect. When no event is left, a pending command completes (70_reset_and_hazards.md R289;
log 4), and an idle block waits (log 2). -/
def nextEvent (s : State) : Host.Outcome State Fault Refusal :=
  match s.inputs with
  | [] => complete s
  | .access a :: rest => busAccess a { s with inputs := rest }
  | .complete :: rest => complete { s with inputs := rest }
  | .reset :: rest => .next (resetBlock { s with inputs := rest })

end Sys2Proof.Machine
end

