-- ==== Sys2Proof/Machine/Step.lean ====
section
/-! DEFINITION. One step of the machine, and how a command word is placed where the next step runs it. -/

namespace Sys2Proof.Machine

/-- One step: the next event of `inputs` takes effect (spec/20_memory.md R63). -/
def step (s : State) : Host.Outcome State Fault Refusal := nextEvent s

/-- The command word placed where the block takes its next command from: latched in CMDL with BUSY = 1, as an issue
leaves it (40_commands.md R100), and its completion the very next event. The bits from `nbits` up are 0 (log 12). -/
def State.withFetchWord (s : State) (nbits w : Nat) : State :=
  latchCommand (BitVec.ofNat 32 (w % 2 ^ nbits)) { s with inputs := .complete :: s.inputs }

end Sys2Proof.Machine
end

