-- ==== Sys2Proof/Machine/HostOps.lean ====
section
/-! DEFINITION. The host operations of spec/30_encoding.md R90, as the events they put on the bus. They are the
host's, not the block's; statements and tests name accesses with them. -/

namespace Sys2Proof.Machine

/-- `wr8 off, v`. -/
def wr8 (off : Nat) (v : Byte) : Input := .access ⟨off, .write .byte (v.setWidth 32)⟩

/-- `wr16 off, v`. -/
def wr16 (off : Nat) (v : BitVec 16) : Input := .access ⟨off, .write .half (v.setWidth 32)⟩

/-- `wr32 off, v`. -/
def wr32 (off : Nat) (v : Word) : Input := .access ⟨off, .write .word v⟩

/-- `rd8 off`. -/
def rd8 (off : Nat) : Input := .access ⟨off, .read .byte⟩

/-- `rd16 off`. -/
def rd16 (off : Nat) : Input := .access ⟨off, .read .half⟩

/-- `rd32 off`. -/
def rd32 (off : Nat) : Input := .access ⟨off, .read .word⟩

/-- `run X`: the CMD write, `polls` reads of STATUS that see BUSY = 1, the completion, and the read that sees
BUSY = 0 (R90 `cmd` and `wait`; 40_commands.md R100). -/
def runWith (polls : Nat) (w : Word) : List Input :=
  [wr32 0x00 w] ++ List.replicate polls (rd32 0x04) ++ [.complete, rd32 0x04]

/-- `blk`: one 8-bit write for each byte, from BLK+i up (R90). -/
def blkFrom (i : Nat) : List Byte → List Input
  | [] => []
  | b :: bs => wr8 (0x40 + i) b :: blkFrom (i + 1) bs

/-- The INIT word of an algorithm (30_encoding.md R89). -/
def initWord : Alg → Word
  | .md5 => 0x00000001
  | .sha1 => 0x00000011
  | .sha256 => 0x00000021

/-- The host sequence of the digest sequence law: INIT, each full block written and COMPRESSed, the tail written
and FINAL, then HEX; every `run` polls STATUS `polls` times while its command is pending (40_commands.md R110). -/
def digestRun (polls : Nat) (alg : Alg) (m : List Byte) : List Input :=
  runWith polls (initWord alg) ++
  (blocksOf (m.length / 64) m).flatMap (fun b => blkFrom 0 b ++ runWith polls 0x00000002) ++
  blkFrom 0 (m.drop (64 * (m.length / 64))) ++
  runWith polls ((0x00000003 : Word) ||| (BitVec.ofNat 32 (m.length % 64) <<< 8)) ++
  runWith polls 0x00000004

end Sys2Proof.Machine
end

