-- ==== Sys2Proof/Safety.lean ====
section
/-! DEFINITION. What counts as a safe run: the invariant of the block's state, and the accesses that stop a run. -/

namespace Sys2Proof.Machine

/-- The H words an algorithm does not use are 0 (10_state.md R22). -/
def State.unusedZero (s : State) : Bool := (s.hash.toList.drop (nw s.alg)).all fun w => decide (w = 0)

/-- The block's invariant: the byte storage is canonical and lists only BLK and HEX; MLEN stays within MSG_MAX and
is a multiple of 64 in ABSORB (10_state.md R33); the H words the algorithm does not use are 0 (R22); HEXV = 1 only
while HEX holds the encoding of H (R32); and in IDLE nothing has been computed since reset (R29, R36). -/
structure State.Inv (s : State) : Prop where
  mem_wf : s.mem.wf = true
  mem_inBuffers : s.mem.inBuffers = true
  mlen_le : s.mlen.toNat ≤ msgMax
  mlen_absorb : s.phase = .absorb → s.mlen.toNat % 64 = 0
  unused_zero : s.unusedZero = true
  hexv_hex : s.hexv = true → s.hex = hexBuffer s.alg s.hash
  idle_clear : s.phase = .idle →
    s.hash = ⟨0, 0, 0, 0, 0, 0, 0, 0⟩ ∧ s.mlen = 0 ∧ s.alg = .md5 ∧ s.hexv = false

/-! ## What the next step does, in the terms claims use -/

/-- The next event is the completion of the pending command word, which decodes to `i` (40_commands.md R100). -/
def State.completes (s : State) (i : Instr) : Prop :=
  (s.inputs = [] ∨ ∃ rest, s.inputs = .complete :: rest) ∧ s.busy = true ∧ decode s.cmdl = .cmd i

/-- The next event is a reset (70_reset_and_hazards.md R280). -/
def State.resets (s : State) : Prop := ∃ rest, s.inputs = .reset :: rest

/-- The next event is the host access `op` at window offset `off` (20_memory.md R50). -/
def State.accesses (s : State) (off : Nat) (op : BusOp) : Prop :=
  ∃ a rest, s.inputs = .access a :: rest ∧ windowOffset a.rel = some off ∧ a.op = op

/-- The next event is a host access to the window that stops the run, and the fault it stops with: BUS_ERROR before
HAZARD_BUSY (20_memory.md R54, R57). -/
def State.hostFault (s : State) : Option Fault :=
  match s.inputs with
  | .access a :: _ =>
    match windowOffset a.rel with
    | none => none
    | some off =>
      if legal off a.op.width = false then some .busError
      else if s.busy && !(decide (off = 0x04) && decide (a.op = .read .word)) then some .hazardBusy
      else none
  | _ => none

end Sys2Proof.Machine
end

