-- ==== Sys2Proof/Certificates/Slice0/Obligations.lean ====
section
/-! DEFINITION. The statements for the provers, one for a rule or a group of rules of the spec. -/

open Sys2Proof Sys2Proof.Machine

/-! ## Encoding -/

/-- The worked encodings and decodings of 30_encoding.md R91, word by word; the spec derives them from R80 and R83. -/
def Obligations.WorkedEncodings : Prop :=
  encode (.final 5) = 0x00000503 ∧ encode (.final 63) = 0x00003F03 ∧ encode (.final 0) = 0x00000003 ∧
  encode .initSha256 = 0x00000021 ∧
  decode 0x00000503 = .cmd (.final 5) ∧ decode 0x00003F03 = .cmd (.final 63) ∧
  decode 0x00000003 = .cmd (.final 0) ∧ decode 0x00000021 = .cmd .initSha256 ∧
  decode 0x00000013 = .err .reservedField ∧ decode 0x00000012 = .err .reservedField ∧
  decode 0x00000031 = .err .badAlg ∧ decode 0x00000105 = .err .illegalOp ∧
  decode 0x00010003 = .err .reservedField

/-- Decoding an encoded well-formed command gives it back, and a word that decodes to a command is that command's
encoding: no bit of a word is dropped, and every command word has one meaning (30_encoding.md R80 to R89). -/
def Obligations.DecodeEncodeAgree : Prop :=
  (∀ i : Instr, i.wellFormed = true → decode (encode i) = .cmd i) ∧
  (∀ (w : Word) (i : Instr), decode w = .cmd i → i.wellFormed = true ∧ encode i = w)

/-- The decoder makes the checks of 30_encoding.md R83 in its order, said on the word as a number. -/
def Obligations.DecoderChecksInOrder : Prop :=
  ∀ w : Word,
    let op := w.toNat % 16
    let alg := w.toNat / 16 % 4
    let n := w.toNat / 256 % 64
    decode w =
      if 5 ≤ op then .err .illegalOp
      else if w.toNat / 64 % 4 ≠ 0 ∨ w.toNat / 16384 ≠ 0 then .err .reservedField
      else if op ≠ 1 ∧ alg ≠ 0 then .err .reservedField
      else if op ≠ 3 ∧ n ≠ 0 then .err .reservedField
      else if op = 1 ∧ alg = 3 then .err .badAlg
      else .cmd (
        if op = 0 then .nop
        else if op = 1 then (if alg = 0 then .initMd5 else if alg = 1 then .initSha1 else .initSha256)
        else if op = 2 then .compress
        else if op = 3 then .final n
        else .hex)

/-- The opcode map: a word is a command of a row exactly when it matches the row's pattern under its mask, the
reserved OP values raise ILLEGAL_OP, and INIT with ALG = 3 raises BAD_ALG (30_encoding.md R82). -/
def Obligations.OpcodeMapRows : Prop :=
  ∀ w : Word,
    (w &&& 0xFFFFFFFF = 0x00000000 ↔ decode w = .cmd .nop) ∧
    (w &&& 0xFFFFFFFF = 0x00000001 ↔ decode w = .cmd .initMd5) ∧
    (w &&& 0xFFFFFFFF = 0x00000011 ↔ decode w = .cmd .initSha1) ∧
    (w &&& 0xFFFFFFFF = 0x00000021 ↔ decode w = .cmd .initSha256) ∧
    (w &&& 0xFFFFFFFF = 0x00000002 ↔ decode w = .cmd .compress) ∧
    (w &&& 0xFFFFC0FF = 0x00000003 ↔ ∃ n, decode w = .cmd (.final n)) ∧
    (w &&& 0xFFFFFFFF = 0x00000004 ↔ decode w = .cmd .hex) ∧
    (5 ≤ w.toNat % 16 → decode w = .err .illegalOp) ∧
    (w = 0x00000031 → decode w = .err .badAlg)

/-! ## The commands: results, completion and frames -/

/-- NOP changes nothing, in every state, and 0x00000000 is the only word that decodes to it: a word of OP 0 with a
reserved bit set raises RESERVED_FIELD, and one with OP 5 or more ILLEGAL_OP (40_commands.md R102). -/
def Obligations.NopChangesNothing : Prop :=
  (∀ s : State, exec .nop s = .next s) ∧ decode 0x00000000 = .cmd .nop ∧
  (∀ w : Word, decode w = .cmd .nop → w = 0x00000000) ∧
  (∀ w : Word, w ≠ 0 → w.toNat % 16 = 0 → decode w = .err .reservedField) ∧
  (∀ w : Word, 5 ≤ w.toNat % 16 → decode w = .err .illegalOp)

/-- Each INIT completes in every state: it loads its IV, `iv` of its algorithm, with the unused words at 0, clears MLEN, ERR, HEXV and all
of HEX, sets STATE to ABSORB and ALG to its algorithm, and leaves BLK and everything else as it was (40_commands.md
R103 to R106). The canonical form of the storage is the invariant a read after a write needs. -/
def Obligations.InitStartsMessage : Prop :=
  ∀ (i : Instr) (word : Word) (a : Alg) (h : HashRegs),
    (i, word, a, h) ∈
      [(Instr.initMd5, (0x00000001 : Word), Alg.md5,
          HashRegs.mk 0x67452301 0xefcdab89 0x98badcfe 0x10325476 0 0 0 0),
       (Instr.initSha1, (0x00000011 : Word), Alg.sha1,
          HashRegs.mk 0x67452301 0xefcdab89 0x98badcfe 0x10325476 0xc3d2e1f0 0 0 0),
       (Instr.initSha256, (0x00000021 : Word), Alg.sha256,
          HashRegs.mk 0x6a09e667 0xbb67ae85 0x3c6ef372 0xa54ff53a 0x510e527f 0x9b05688c 0x1f83d9ab 0x5be0cd19)] →
    decode word = .cmd i ∧ iv a = h ∧
    ∀ s : State, s.mem.wf = true →
      ∃ m : Memory,
        exec i s = .next { s with
          hash := h, mem := m, mlen := 0, phase := .absorb, alg := a, err := none, hexv := false } ∧
        (∀ k < 64, Memory.read m (0x80 + k) = 0) ∧
        (∀ k, k < 0x80 ∨ 0xC0 ≤ k → Memory.read m k = Memory.read s.mem k)

/-- COMPRESS, every case: locked while ERR is not 0; SEQUENCE unless ABSORB; LENGTH when MLEN + 64 exceeds MSG_MAX;
otherwise it absorbs all 64 bytes of BLK. Nothing else changes, no byte of BLK or HEX among it (40_commands.md
R107). The compression it runs, `compressBlock`, is the compressor of STATUS.ALG: MD5's for 0, SHA-1's for 1 and
SHA-256's for 2 (R101). -/
def Obligations.CompressAbsorbsBlock : Prop :=
  decode 0x00000002 = .cmd .compress ∧ msgMax = 2 ^ 61 - 1 ∧
  (∀ (h : HashRegs) (block : List Byte),
    compressBlock .md5 h block = md5Compress h block ∧ compressBlock .sha1 h block = sha1Compress h block ∧
    compressBlock .sha256 h block = sha256Compress h block) ∧
  ∀ s : State,
    (s.err ≠ none → exec .compress s = .next s) ∧
    (s.err = none → s.phase ≠ .absorb → exec .compress s = .next { s with err := some .sequence }) ∧
    (s.err = none → s.phase = .absorb → msgMax < s.mlen.toNat + 64 →
      exec .compress s = .next { s with err := some .length }) ∧
    (s.err = none → s.phase = .absorb → s.mlen.toNat + 64 ≤ msgMax →
      exec .compress s = .next { s with
        hash := compressBlock s.alg s.hash ((List.range 64).map fun k => Memory.read s.mem (0x40 + k))
        mlen := s.mlen + 64
        hexv := false })

/-- FINAL n, every case: locked while ERR is not 0; SEQUENCE unless ABSORB; otherwise it absorbs the n tail bytes
with their padding, one block up to 55 bytes and two from 56 on, counts n bytes and ends the message. Nothing else
changes, no byte of BLK or HEX among it (40_commands.md R108). -/
def Obligations.FinalAbsorbsPaddedTail : Prop :=
  (∀ n ≤ 63, decode ((0x00000003 : Word) ||| (BitVec.ofNat 32 n <<< 8)) = .cmd (.final n)) ∧
  ∀ (s : State) (n : Nat), n ≤ 63 →
    let tail := (List.range n).map fun k => Memory.read s.mem (0x40 + k)
    let len := lenField s.alg (s.mlen.toNat + n)
    (s.err ≠ none → exec (.final n) s = .next s) ∧
    (s.err = none → s.phase ≠ .absorb → exec (.final n) s = .next { s with err := some .sequence }) ∧
    (s.err = none → s.phase = .absorb → n ≤ 55 →
      exec (.final n) s = .next { s with
        hash := compressBlock s.alg s.hash (tail ++ [0x80] ++ List.replicate (55 - n) 0 ++ len)
        mlen := s.mlen + BitVec.ofNat 64 n
        phase := .done
        hexv := false }) ∧
    (s.err = none → s.phase = .absorb → 56 ≤ n →
      exec (.final n) s = .next { s with
        hash := compressBlock s.alg (compressBlock s.alg s.hash (tail ++ [0x80] ++ List.replicate (63 - n) 0))
          (List.replicate 56 0 ++ len)
        mlen := s.mlen + BitVec.ofNat 64 n
        phase := .done
        hexv := false })

/-- HEX, every case: locked while ERR is not 0; SEQUENCE in IDLE; otherwise HEX holds HexBuffer(ALG, H) and HEXV is
1. Nothing else changes, no byte outside HEX among it (40_commands.md R109). -/
def Obligations.HexWritesDigest : Prop :=
  decode 0x00000004 = .cmd .hex ∧
  ∀ s : State,
    (s.err ≠ none → exec .hex s = .next s) ∧
    (s.err = none → s.phase = .idle → exec .hex s = .next { s with err := some .sequence }) ∧
    (s.err = none → s.phase ≠ .idle → s.mem.wf = true →
      ∃ m : Memory,
        exec .hex s = .next { s with mem := m, hexv := true } ∧
        Memory.readBytes m 0x80 64 = hexBuffer s.alg s.hash ∧
        (∀ k, k < 0x80 ∨ 0xC0 ≤ k → Memory.read m k = Memory.read s.mem k))

/-- Every command answers a next state in every state: the block has no traps (60_exceptions.md R250). -/
def Obligations.CommandsNeverStop : Prop :=
  ∀ (i : Instr) (s : State), ∃ t, exec i s = .next t

/-- FINAL n reads BLK[0..n-1] and ignores BLK[n..63] (10_state.md R25, 40_commands.md R108): two states that differ
only in the byte storage, and agree on the first n bytes of BLK, come out the same but for the storage. -/
def Obligations.FinalIgnoresBytesBeyondTail : Prop :=
  ∀ (s : State) (m : Memory) (n : Nat), n ≤ 63 →
    (∀ k < n, Memory.read m (0x40 + k) = Memory.read s.mem (0x40 + k)) →
    ∃ t, exec (.final n) s = .next t ∧ exec (.final n) { s with mem := m } = .next { t with mem := m }

/-- Running HEX twice in a row writes the same bytes (40_commands.md R109): the second changes no state at all. -/
def Obligations.HexTwiceWritesTheSame : Prop :=
  ∀ s t : State, s.mem.wf = true → exec .hex s = .next t → exec .hex t = .next t

/-- FINAL never exceeds the length limit: in ABSORB, within the invariant, MLEN + n stays within MSG_MAX and is
counted without wrapping (41_padder.md R137). -/
def Obligations.FinalStaysWithinLimit : Prop :=
  ∀ (s : State) (n : Nat), s.Inv → s.phase = .absorb → s.err = none → n ≤ 63 →
    s.mlen.toNat + n ≤ msgMax ∧
    ∃ t, exec (.final n) s = .next t ∧ t.mlen.toNat = s.mlen.toNat + n

/-! ## Command errors -/

/-- `raise Error(code)` keeps the first error and changes nothing else; the raising command's completion still clears
BUSY (60_exceptions.md R252). So a step that completes a pending word which fails decode records its error and clears
BUSY (40_commands.md R100). That the completion is also the step taken when no event is left is the model's reading,
log 4, and that CMDL's bits are then 0 is the model's choice, log 5. -/
def Obligations.ErrorRecording : Prop :=
  (∀ (e : CmdError) (s : State), s.err = none → raiseError e s = { s with err := some e }) ∧
  (∀ (e : CmdError) (s : State), s.err ≠ none → raiseError e s = s) ∧
  (∀ (e : CmdError) (s : State) (rest : List Input), s.inputs = .complete :: rest → s.busy = true →
    decode s.cmdl = .err e →
    step s = .next { s with inputs := rest, err := some (s.err.getD e), busy := false, cmdl := 0 }) ∧
  (∀ (e : CmdError) (s : State), s.inputs = [] → s.busy = true → decode s.cmdl = .err e →
    step s = .next { s with err := some (s.err.getD e), busy := false, cmdl := 0 })

/-- The error lock: while ERR is not 0, every command word but the three INIT words changes nothing and raises
nothing, and an INIT still runs and clears ERR (60_exceptions.md R256). -/
def Obligations.ErrorLockUntilInit : Prop :=
  ∀ (w : Word) (s : State), s.err ≠ none →
    (w ≠ 0x00000001 → w ≠ 0x00000011 → w ≠ 0x00000021 → runWord w s = .next s) ∧
    (w = 0x00000001 ∨ w = 0x00000011 ∨ w = 0x00000021 →
      ∃ t, runWord w s = .next t ∧ t.err = none ∧ t.phase = .absorb)

/-- Which error a word leaves in ERR when ERR was 0: the first cause in the order of 60_exceptions.md R253, and 0
when there is none. -/
def Obligations.ErrorPriority : Prop :=
  ∀ (w : Word) (s : State), s.err = none →
    let op := w.toNat % 16
    let alg := w.toNat / 16 % 4
    let n := w.toNat / 256 % 64
    ∃ t, runWord w s = .next t ∧ t.err =
      if 5 ≤ op then some .illegalOp
      else if w.toNat / 64 % 4 ≠ 0 ∨ w.toNat / 16384 ≠ 0 ∨ (op ≠ 1 ∧ alg ≠ 0) ∨ (op ≠ 3 ∧ n ≠ 0) then
        some .reservedField
      else if op = 1 ∧ alg = 3 then some .badAlg
      else if ((op = 2 ∨ op = 3) ∧ s.phase ≠ .absorb) ∨ (op = 4 ∧ s.phase = .idle) then some .sequence
      else if op = 2 ∧ msgMax < s.mlen.toNat + 64 then some .length
      else none

/-- ERR is cleared only by a completed INIT and by reset; any other step keeps the recorded error as it is
(60_exceptions.md R255). -/
def Obligations.ErrClearedOnlyByInitOrReset : Prop :=
  ∀ (s t : State) (e : CmdError), step s = .next t → s.err = some e →
    t.err = some e ∨
    (t.err = none ∧
      (s.resets ∨ s.completes .initMd5 ∨ s.completes .initSha1 ∨ s.completes .initSha256))

/-! ## Who writes what, over every step -/

/-- A step changes H or MLEN only by reset or by the completion of an INIT, COMPRESS or FINAL (10_state.md R20,
R21). -/
def Obligations.HashWritersOnly : Prop :=
  ∀ s t : State, step s = .next t → t.hash ≠ s.hash ∨ t.mlen ≠ s.mlen →
    s.resets ∨ s.completes .initMd5 ∨ s.completes .initSha1 ∨ s.completes .initSha256 ∨
    s.completes .compress ∨ ∃ n, s.completes (.final n)

/-- A step changes a byte of BLK only by reset or by a host write to BLK while BUSY = 0, never by a command, and a
byte of HEX only by reset or by the completion of an INIT or HEX (10_state.md R25, R26). -/
def Obligations.BufferWritersOnly : Prop :=
  ∀ s t : State, step s = .next t →
    (∀ k < 64, Memory.read t.mem (0x40 + k) ≠ Memory.read s.mem (0x40 + k) →
      s.resets ∨ (s.busy = false ∧ ∃ off n v, 0x40 ≤ off ∧ off ≤ 0x7F ∧ s.accesses off (.write n v))) ∧
    (∀ k < 64, Memory.read t.mem (0x80 + k) ≠ Memory.read s.mem (0x80 + k) →
      s.resets ∨ s.completes .initMd5 ∨ s.completes .initSha1 ∨ s.completes .initSha256 ∨ s.completes .hex)

/-- Who changes the fields of STATUS, and to what: STATE only by reset, INIT and FINAL from ABSORB; ALG only by
reset and INIT; HEXV only by HEX, which sets it, and reset, INIT, COMPRESS and FINAL, which clear it; BUSY only by a
CMD write, which sets it, and reset or a completion, which clear it (10_state.md R28 to R32, R35). -/
def Obligations.StatusFieldWriters : Prop :=
  ∀ s t : State, step s = .next t →
    let init := s.completes .initMd5 ∨ s.completes .initSha1 ∨ s.completes .initSha256
    (t.phase ≠ s.phase →
      (s.resets ∧ t.phase = .idle) ∨ (init ∧ t.phase = .absorb) ∨
      ((∃ n, s.completes (.final n)) ∧ s.phase = .absorb ∧ t.phase = .done)) ∧
    (t.alg ≠ s.alg →
      (s.resets ∧ t.alg = .md5) ∨ (s.completes .initMd5 ∧ t.alg = .md5) ∨
      (s.completes .initSha1 ∧ t.alg = .sha1) ∨ (s.completes .initSha256 ∧ t.alg = .sha256)) ∧
    (t.hexv ≠ s.hexv →
      (t.hexv = true ∧ s.completes .hex) ∨
      (t.hexv = false ∧ (s.resets ∨ init ∨ s.completes .compress ∨ ∃ n, s.completes (.final n)))) ∧
    (t.busy ≠ s.busy →
      (t.busy = true ∧ ∃ v, s.accesses 0x00 (.write .word v) ∧ t.cmdl = v) ∨
      (t.busy = false ∧ (s.resets ∨ s.inputs = [] ∨ ∃ rest, s.inputs = .complete :: rest)))

/-! ## The compressors -/

/-- The message words of a 64-byte block, byte by byte: little-endian for MD5, big-endian for SHA-1 and SHA-256
(42_md5.md R151, 43_sha1.md R181, 44_sha256.md R202). -/
def Obligations.MessageWordByteOrder : Prop :=
  ∀ block : List Byte, block.length = 64 →
    (leWords block).length = 16 ∧ (beWords block).length = 16 ∧
    ∀ j < 16,
      let b := fun k => (block.getD (4 * j + k) 0).toNat
      ((leWords block).getD j 0).toNat = b 0 + 2 ^ 8 * b 1 + 2 ^ 16 * b 2 + 2 ^ 24 * b 3 ∧
      ((beWords block).getD j 0).toNat = 2 ^ 24 * b 0 + 2 ^ 16 * b 1 + 2 ^ 8 * b 2 + b 3

/-- The schedule of all 64 MD5 rounds, row by row as 42_md5.md R160 prints it: round, function (0 F, 1 G, 2 H, 3 I),
message index, rotation, constant. The spec gathers it from R152 to R155, of which R155 is from general knowledge
(log 15). -/
def Obligations.Md5RoundSchedule : Prop :=
  ∀ row ∈ (
    [(0, 0, 0, 7, 0xd76aa478), (1, 0, 1, 12, 0xe8c7b756), (2, 0, 2, 17, 0x242070db), (3, 0, 3, 22, 0xc1bdceee)] ++
    [(4, 0, 4, 7, 0xf57c0faf), (5, 0, 5, 12, 0x4787c62a), (6, 0, 6, 17, 0xa8304613), (7, 0, 7, 22, 0xfd469501)] ++
    [(8, 0, 8, 7, 0x698098d8), (9, 0, 9, 12, 0x8b44f7af), (10, 0, 10, 17, 0xffff5bb1), (11, 0, 11, 22, 0x895cd7be)] ++
    [(12, 0, 12, 7, 0x6b901122), (13, 0, 13, 12, 0xfd987193), (14, 0, 14, 17, 0xa679438e), (15, 0, 15, 22, 0x49b40821)] ++
    [(16, 1, 1, 5, 0xf61e2562), (17, 1, 6, 9, 0xc040b340), (18, 1, 11, 14, 0x265e5a51), (19, 1, 0, 20, 0xe9b6c7aa)] ++
    [(20, 1, 5, 5, 0xd62f105d), (21, 1, 10, 9, 0x02441453), (22, 1, 15, 14, 0xd8a1e681), (23, 1, 4, 20, 0xe7d3fbc8)] ++
    [(24, 1, 9, 5, 0x21e1cde6), (25, 1, 14, 9, 0xc33707d6), (26, 1, 3, 14, 0xf4d50d87), (27, 1, 8, 20, 0x455a14ed)] ++
    [(28, 1, 13, 5, 0xa9e3e905), (29, 1, 2, 9, 0xfcefa3f8), (30, 1, 7, 14, 0x676f02d9), (31, 1, 12, 20, 0x8d2a4c8a)] ++
    [(32, 2, 5, 4, 0xfffa3942), (33, 2, 8, 11, 0x8771f681), (34, 2, 11, 16, 0x6d9d6122), (35, 2, 14, 23, 0xfde5380c)] ++
    [(36, 2, 1, 4, 0xa4beea44), (37, 2, 4, 11, 0x4bdecfa9), (38, 2, 7, 16, 0xf6bb4b60), (39, 2, 10, 23, 0xbebfbc70)] ++
    [(40, 2, 13, 4, 0x289b7ec6), (41, 2, 0, 11, 0xeaa127fa), (42, 2, 3, 16, 0xd4ef3085), (43, 2, 6, 23, 0x04881d05)] ++
    [(44, 2, 9, 4, 0xd9d4d039), (45, 2, 12, 11, 0xe6db99e5), (46, 2, 15, 16, 0x1fa27cf8), (47, 2, 2, 23, 0xc4ac5665)] ++
    [(48, 3, 0, 6, 0xf4292244), (49, 3, 7, 10, 0x432aff97), (50, 3, 14, 15, 0xab9423a7), (51, 3, 5, 21, 0xfc93a039)] ++
    [(52, 3, 12, 6, 0x655b59c3), (53, 3, 3, 10, 0x8f0ccc92), (54, 3, 10, 15, 0xffeff47d), (55, 3, 1, 21, 0x85845dd1)] ++
    [(56, 3, 8, 6, 0x6fa87e4f), (57, 3, 15, 10, 0xfe2ce6e0), (58, 3, 6, 15, 0xa3014314), (59, 3, 13, 21, 0x4e0811a1)] ++
    [(60, 3, 4, 6, 0xf7537e82), (61, 3, 11, 10, 0xbd3af235), (62, 3, 2, 15, 0x2ad7d2bb), (63, 3, 9, 21, 0xeb86d391)]
    : List (Nat × Nat × Nat × Nat × Word)),
    md5G row.1 = row.2.2.1 ∧ md5S row.1 = row.2.2.2.1 ∧ md5K.getD row.1 0 = row.2.2.2.2 ∧
    ∀ x y z : Word, md5F row.1 x y z =
      if row.2.1 = 0 then (x &&& y) ||| (~~~x &&& z)
      else if row.2.1 = 1 then (x &&& z) ||| (y &&& ~~~z)
      else if row.2.1 = 2 then x ^^^ y ^^^ z
      else y ^^^ (x ||| ~~~z)

/-- MD5Compress is the loop of 42_md5.md R159: with the message words of R151 and the registers before each round as
sequences, every round updates them as R157 says, and the registers after round 63 are added into H[0..3]. The spec
takes the functions (R155) and the update (R157) from general knowledge (log 15). -/
def Obligations.Md5CompressFollowsRounds : Prop :=
  ∀ (h : HashRegs) (block : List Byte), block.length = 64 →
    ∃ m a b c d : Nat → Word,
      (∀ j < 16, (m j).toNat =
        (block.getD (4 * j) 0).toNat + 2 ^ 8 * (block.getD (4 * j + 1) 0).toNat +
        2 ^ 16 * (block.getD (4 * j + 2) 0).toNat + 2 ^ 24 * (block.getD (4 * j + 3) 0).toNat) ∧
      (a 0 = h.h0 ∧ b 0 = h.h1 ∧ c 0 = h.h2 ∧ d 0 = h.h3) ∧
      (∀ i < 64,
        let f := if i < 16 then (b i &&& c i) ||| (~~~(b i) &&& d i)
          else if i < 32 then (b i &&& d i) ||| (c i &&& ~~~(d i))
          else if i < 48 then b i ^^^ c i ^^^ d i
          else c i ^^^ (b i ||| ~~~(d i))
        let g := if i < 16 then i else if i < 32 then (5 * i + 1) % 16 else if i < 48 then (3 * i + 5) % 16
          else (7 * i) % 16
        let t := a i + f + md5K.getD i 0 + m g
        a (i + 1) = d i ∧
        b (i + 1) = b i +
          t.rotateLeft (([[7, 12, 17, 22], [5, 9, 14, 20], [4, 11, 16, 23], [6, 10, 15, 21]].getD (i / 16) []).getD
            (i % 4) 0) ∧
        c (i + 1) = b i ∧ d (i + 1) = c i) ∧
      md5Compress h block =
        ⟨h.h0 + a 64, h.h1 + b 64, h.h2 + c 64, h.h3 + d 64, h.h4, h.h5, h.h6, h.h7⟩

/-- SHA1Compress is the loop of 43_sha1.md R187: the schedule obeys R181 and R182, every round updates the registers
as R185 says, and the registers after round 79 are added into H[0..4]. The spec takes the functions and constants
of R183 from general knowledge (log 15). -/
def Obligations.Sha1CompressFollowsRounds : Prop :=
  ∀ (h : HashRegs) (block : List Byte), block.length = 64 →
    ∃ w a b c d e : Nat → Word,
      (∀ j < 16, (w j).toNat =
        2 ^ 24 * (block.getD (4 * j) 0).toNat + 2 ^ 16 * (block.getD (4 * j + 1) 0).toNat +
        2 ^ 8 * (block.getD (4 * j + 2) 0).toNat + (block.getD (4 * j + 3) 0).toNat) ∧
      (∀ t, 16 ≤ t → t < 80 →
        w t = (w (t - 3) ^^^ w (t - 8) ^^^ w (t - 14) ^^^ w (t - 16)).rotateLeft 1) ∧
      (a 0 = h.h0 ∧ b 0 = h.h1 ∧ c 0 = h.h2 ∧ d 0 = h.h3 ∧ e 0 = h.h4) ∧
      (∀ t < 80,
        let f := if t < 20 then (b t &&& c t) ||| (~~~(b t) &&& d t)
          else if t < 40 then b t ^^^ c t ^^^ d t
          else if t < 60 then (b t &&& c t) ||| (b t &&& d t) ||| (c t &&& d t)
          else b t ^^^ c t ^^^ d t
        let k : Word := if t < 20 then 0x5A827999 else if t < 40 then 0x6ED9EBA1 else if t < 60 then 0x8F1BBCDC
          else 0xCA62C1D6
        a (t + 1) = (a t).rotateLeft 5 + f + e t + k + w t ∧
        b (t + 1) = a t ∧ c (t + 1) = (b t).rotateLeft 30 ∧ d (t + 1) = c t ∧ e (t + 1) = d t) ∧
      sha1Compress h block =
        ⟨h.h0 + a 80, h.h1 + b 80, h.h2 + c 80, h.h3 + d 80, h.h4 + e 80, h.h5, h.h6, h.h7⟩

/-- SHA256Compress is the loop of 44_sha256.md R208: the schedule obeys R202 to R204, every round updates the
registers as R205 and R206 say, and the registers after round 63 are added into H[0..7]. The table K is the spec's
own computation (R201; log 15). -/
def Obligations.Sha256CompressFollowsRounds : Prop :=
  ∀ (r : HashRegs) (block : List Byte), block.length = 64 →
    ∃ w a b c d e f g h : Nat → Word,
      (∀ j < 16, (w j).toNat =
        2 ^ 24 * (block.getD (4 * j) 0).toNat + 2 ^ 16 * (block.getD (4 * j + 1) 0).toNat +
        2 ^ 8 * (block.getD (4 * j + 2) 0).toNat + (block.getD (4 * j + 3) 0).toNat) ∧
      (∀ t, 16 ≤ t → t < 64 →
        let x := w (t - 15)
        let y := w (t - 2)
        w t = w (t - 16) + (x.rotateRight 7 ^^^ x.rotateRight 18 ^^^ (x >>> 3)) + w (t - 7) +
          (y.rotateRight 17 ^^^ y.rotateRight 19 ^^^ (y >>> 10))) ∧
      (a 0 = r.h0 ∧ b 0 = r.h1 ∧ c 0 = r.h2 ∧ d 0 = r.h3 ∧ e 0 = r.h4 ∧ f 0 = r.h5 ∧ g 0 = r.h6 ∧ h 0 = r.h7) ∧
      (∀ t < 64,
        let s1 := (e t).rotateRight 6 ^^^ (e t).rotateRight 11 ^^^ (e t).rotateRight 25
        let ch := (e t &&& f t) ^^^ (~~~(e t) &&& g t)
        let temp1 := h t + s1 + ch + sha256K.getD t 0 + w t
        let s0 := (a t).rotateRight 2 ^^^ (a t).rotateRight 13 ^^^ (a t).rotateRight 22
        let maj := (a t &&& b t) ^^^ (a t &&& c t) ^^^ (b t &&& c t)
        a (t + 1) = temp1 + (s0 + maj) ∧ b (t + 1) = a t ∧ c (t + 1) = b t ∧ d (t + 1) = c t ∧
        e (t + 1) = d t + temp1 ∧ f (t + 1) = e t ∧ g (t + 1) = f t ∧ h (t + 1) = g t) ∧
      sha256Compress r block =
        ⟨r.h0 + a 64, r.h1 + b 64, r.h2 + c 64, r.h3 + d 64, r.h4 + e 64, r.h5 + f 64, r.h6 + g 64, r.h7 + h 64⟩

/-- The SHA-256 constants are the first 32 bits of the fractional parts of the cube roots of the first 64 primes,
and its IV those of the square roots of the first eight (44_sha256.md R200, R201); the SHA-1 constants are
floor(2^30 sqrt x) for x = 2, 3, 5, 10 (43_sha1.md R183). The spec marks these relations as computed or from general
knowledge (log 15). -/
def Obligations.ConstantsAreRoots : Prop :=
  let primes := [2, 3, 5, 7, 11, 13, 17, 19, 23, 29, 31, 37, 41, 43, 47, 53] ++
    [59, 61, 67, 71, 73, 79, 83, 89, 97, 101, 103, 107, 109, 113, 127, 131] ++
    [137, 139, 149, 151, 157, 163, 167, 173, 179, 181, 191, 193, 197, 199, 211, 223] ++
    [227, 229, 233, 239, 241, 251, 257, 263, 269, 271, 277, 281, 283, 293, 307, 311]
  sha256K.length = 64 ∧
  (∀ t < 64, ∃ r : Nat, r ^ 3 ≤ primes.getD t 0 * 2 ^ 96 ∧ primes.getD t 0 * 2 ^ 96 < (r + 1) ^ 3 ∧
    (sha256K.getD t 0).toNat = r % 2 ^ 32) ∧
  (∀ t < 8, ∃ r : Nat, r ^ 2 ≤ primes.getD t 0 * 2 ^ 64 ∧ primes.getD t 0 * 2 ^ 64 < (r + 1) ^ 2 ∧
    (sha256IV.get t).toNat = r % 2 ^ 32) ∧
  (∀ p ∈ [(0, 2), (20, 3), (40, 5), (60, 10)],
    (sha1K p.1).toNat ^ 2 ≤ p.2 * 2 ^ 60 ∧ p.2 * 2 ^ 60 < ((sha1K p.1).toNat + 1) ^ 2)

/-- MD5Compress reads and writes only H[0..3], and SHA1Compress only H[0..4] (42_md5.md R161, 43_sha1.md R188). -/
def Obligations.UnusedHashWordsPassThrough : Prop :=
  (∀ (h : HashRegs) (block : List Byte) (x4 x5 x6 x7 : Word),
    md5Compress { h with h4 := x4, h5 := x5, h6 := x6, h7 := x7 } block =
      { md5Compress h block with h4 := x4, h5 := x5, h6 := x6, h7 := x7 }) ∧
  (∀ (h : HashRegs) (block : List Byte) (x5 x6 x7 : Word),
    sha1Compress { h with h5 := x5, h6 := x6, h7 := x7 } block =
      { sha1Compress h block with h5 := x5, h6 := x6, h7 := x7 })

/-! ## The padder -/

/-- The padded message: a multiple of 64 bytes, exactly L + 9 + z long with z the least count that brings L + 1 + z
to 56 modulo 64, the message first, then 0x80, zero bytes, and the length field last (41_padder.md R131, R133, which
the spec derives from R130). -/
def Obligations.PaddedLength : Prop :=
  ∀ (alg : Alg) (m : List Byte), ∃ z : Nat,
    z ≤ 63 ∧ (m.length + 1 + z) % 64 = 56 ∧ (∀ y, (m.length + 1 + y) % 64 = 56 → z ≤ y) ∧
    (z : Int) = (55 - (m.length : Int)) % 64 ∧
    (pad alg m).length = m.length + 9 + z ∧ (pad alg m).length % 64 = 0 ∧
    (pad alg m).take m.length = m ∧ (pad alg m).getD m.length 0 = 0x80 ∧
    (∀ k < z, (pad alg m).getD (m.length + 1 + k) 1 = 0) ∧
    (pad alg m).drop ((pad alg m).length - 8) = lenField alg m.length

/-- The length field holds 8 L in 8 bytes, least significant first for MD5 and most significant first for SHA-1 and
SHA-256, for every length the block hashes (41_padder.md R132). -/
def Obligations.LengthFieldByteOrder : Prop :=
  ∀ len : Nat, len ≤ 2 ^ 61 - 1 →
    8 * len < 2 ^ 64 ∧
    ∀ i < 8,
      ((lenField .md5 len).getD i 0).toNat = 8 * len / 256 ^ i % 256 ∧
      ((lenField .sha1 len).getD i 0).toNat = 8 * len / 256 ^ (7 - i) % 256 ∧
      ((lenField .sha256 len).getD i 0).toNat = 8 * len / 256 ^ (7 - i) % 256

/-- Swapping the byte order of the length field changes the padding of every message of 1 to 538,968,063 bytes, and
not that of the empty message nor of one of 538,968,064 bytes (41_padder.md R136). -/
def Obligations.LengthFieldSwapChangesPadding : Prop :=
  (∀ len : Nat, 1 ≤ len → len < 2 ^ 29 + 2 ^ 21 → lenField .md5 len ≠ lenField .sha1 len) ∧
  lenField .md5 0 = lenField .sha1 0 ∧
  lenField .md5 (2 ^ 29 + 2 ^ 21) = lenField .sha1 (2 ^ 29 + 2 ^ 21)

/-- The tail padder: one block for a tail of at most 55 bytes, two for 56 to 63, with the bytes where 41_padder.md
R134 puts them; every block has 64 bytes. -/
def Obligations.TailPadderBlocks : Prop :=
  ∀ (alg : Alg) (t : List Byte) (len : Nat),
    (t.length ≤ 55 →
      padTail alg t len = [t ++ [0x80] ++ List.replicate (55 - t.length) 0 ++ lenField alg len]) ∧
    (56 ≤ t.length → t.length ≤ 63 →
      padTail alg t len =
        [t ++ [0x80] ++ List.replicate (63 - t.length) 0, List.replicate 56 0 ++ lenField alg len]) ∧
    (t.length ≤ 63 → ∀ b ∈ padTail alg t len, b.length = 64)

/-- The split law: padding the tail alone, with the total length, gives the same bytes as padding the whole message
(41_padder.md R135, which the spec derives from R130, R131 and R134). -/
def Obligations.PaddingSplitsAtBlocks : Prop :=
  ∀ (alg : Alg) (m : List Byte),
    let q := m.length / 64
    pad alg m = m.take (64 * q) ++ (padTail alg (m.drop (64 * q)) m.length).flatten

/-- The number of blocks compressed for a message (41_padder.md R139, which the spec derives from R134). -/
def Obligations.BlockCountOfMessage : Prop :=
  ∀ (alg : Alg) (m : List Byte),
    let q := m.length / 64
    let p := if m.length % 64 ≤ 55 then 1 else 2
    (pad alg m).length = 64 * (q + p) ∧ (padTail alg (m.drop (64 * q)) m.length).length = p

/-! ## The hex encoder -/

/-- Every character of the HEX buffer: byte j of the digest, taken from H in the algorithm's byte order, as two
lowercase ASCII digits, the high nibble first, and 0x00 after them up to 64 (45_hex_encoder.md R230 to R233; the ASCII
codes are from general knowledge, log 15). -/
def Obligations.HexBufferCharacters : Prop :=
  ∀ (alg : Alg) (h : HashRegs),
    let digit := fun v : Nat => if v ≤ 9 then 0x30 + v else 0x61 + (v - 10)
    let words := [h.h0, h.h1, h.h2, h.h3, h.h4, h.h5, h.h6, h.h7]
    let len := match alg with
      | .md5 => 16
      | .sha1 => 20
      | .sha256 => 32
    (hexBuffer alg h).length = 64 ∧
    (∀ j < len,
      let shift := if alg = .md5 then j % 4 else 3 - j % 4
      let b := (words.getD (j / 4) 0).toNat / 256 ^ shift % 256
      ((hexBuffer alg h).getD (2 * j) 0).toNat = digit (b / 16) ∧
      ((hexBuffer alg h).getD (2 * j + 1) 0).toNat = digit (b % 16)) ∧
    (∀ k, 2 * len ≤ k → k < 64 → (hexBuffer alg h).getD k 1 = 0)

/-- The digest's characters are only '0' to '9' and 'a' to 'f', and there are 32, 40 or 64 of them (45_hex_encoder.md
R234). -/
def Obligations.HexCharactersLowercase : Prop :=
  ∀ (alg : Alg) (m : List Byte),
    (digest alg m).length = (match alg with
      | .md5 => 32
      | .sha1 => 40
      | .sha256 => 64) ∧
    ∀ c ∈ digest alg m, (0x30 ≤ c.toNat ∧ c.toNat ≤ 0x39) ∨ (0x61 ≤ c.toNat ∧ c.toNat ≤ 0x66)

/-! ## The bus -/

/-- The STATUS word is its fields' codes at their places, every other bit 0; while a command is pending the other
fields hold their values from before it (10_state.md R28). -/
def Obligations.StatusRegisterLayout : Prop :=
  ∀ s : State,
    let state := match s.phase with
      | .idle => 0
      | .absorb => 1
      | .done => 2
    let alg := match s.alg with
      | .md5 => 0
      | .sha1 => 1
      | .sha256 => 2
    let err := match s.err with
      | none => 0
      | some .illegalOp => 1
      | some .reservedField => 2
      | some .badAlg => 3
      | some .sequence => 4
      | some .length => 5
    let rest := state * 2 + alg * 2 ^ 4 + err * 2 ^ 8 + (if s.hexv then 1 else 0) * 2 ^ 12
    (statusWord s).toNat = (if s.busy then 1 else 0) + rest ∧
    ∀ v, (statusWord (latchCommand v s)).toNat = 1 + rest

/-- The address decode: a host address is window offset A - HASH_BASE exactly from HASH_BASE to HASH_BASE + 0xFF,
for every HASH_BASE, and an access anywhere else changes nothing of the block (20_memory.md R50). That the step then
goes on and answers "not selected" is the model's choice, log 7. -/
def Obligations.AddressDecode : Prop :=
  (∀ address off : Nat, windowOffset (relOfAddress address) = some off ↔
    Config.hashBase ≤ address ∧ address ≤ Config.hashBase + 0xFF ∧ off = address - Config.hashBase) ∧
  (∀ (s : State) (a : Access) (rest : List Input), s.inputs = .access a :: rest → a.rel < 0 ∨ 0xFF < a.rel →
    step s = .next { s with inputs := rest, response := .unselected })

/-- An access that is misaligned, or narrower than 32 bits outside BLK and HEX, is BUS_ERROR, whatever the state
(20_memory.md R52, R53). -/
def Obligations.IllegalAccessIsBusError : Prop :=
  ∀ (s : State) (off : Nat) (op : BusOp), s.accesses off op →
    ¬(off % widthBytes op.width = 0 ∧ (widthBytes op.width = 4 ∨ (0x40 ≤ off ∧ off ≤ 0xBF))) →
    step s = .fault .busError

/-- While BUSY = 1, a legal access other than a 32-bit read of STATUS is HAZARD_BUSY, and that read is answered with
BUSY = 1 and changes nothing of the block (70_reset_and_hazards.md R284). -/
def Obligations.BusyHazard : Prop :=
  ∀ (s : State) (off : Nat) (op : BusOp), s.accesses off op → s.busy = true →
    off % widthBytes op.width = 0 → (widthBytes op.width = 4 ∨ (0x40 ≤ off ∧ off ≤ 0xBF)) →
    (¬(off = 0x04 ∧ op = .read .word) → step s = .fault .hazardBusy) ∧
    (off = 0x04 ∧ op = .read .word →
      step s = .next { s with inputs := s.inputs.tail, response := .data .word (statusWord s) } ∧
      (statusWord s).toNat % 2 = 1)

/-- Every legal read with BUSY = 0, location by location, and that a read changes nothing of the block (20_memory.md
R57). -/
def Obligations.RegisterMapReads : Prop :=
  ∀ (s : State) (off : Nat) (n : Width), s.accesses off (.read n) → s.busy = false →
    off % widthBytes n = 0 → (widthBytes n = 4 ∨ (0x40 ≤ off ∧ off ≤ 0xBF)) →
    ∃ v : Word,
      step s = .next { s with inputs := s.inputs.tail, response := .data n v } ∧
      (off = 0x00 → v = 0) ∧
      (off = 0x04 → v = statusWord s) ∧
      (off = 0x08 → v.toNat = s.mlen.toNat % 2 ^ 32) ∧
      (off = 0x0C → v.toNat = s.mlen.toNat / 2 ^ 32) ∧
      (∀ k < 8, off = 0x20 + 4 * k →
        v = [s.hash.h0, s.hash.h1, s.hash.h2, s.hash.h3, s.hash.h4, s.hash.h5, s.hash.h6, s.hash.h7].getD k 0) ∧
      (0x40 ≤ off → off ≤ 0xBF →
        v.toNat = ∑ i ∈ Finset.range (widthBytes n), (Memory.read s.mem (off + i)).toNat * 2 ^ (8 * i)) ∧
      ((0x10 ≤ off ∧ off ≤ 0x1F) ∨ 0xC0 ≤ off → v = 0)

/-- Every legal write with BUSY = 0: a CMD write latches the word and sets BUSY, a BLK write stores its bytes
little-endian and leaves every other byte as it was, and a write anywhere else changes nothing of the block
(20_memory.md R54 to R56). -/
def Obligations.HostWrites : Prop :=
  ∀ (s : State) (off : Nat) (n : Width) (v : Word), s.accesses off (.write n v) → s.busy = false →
    off % widthBytes n = 0 → (widthBytes n = 4 ∨ (0x40 ≤ off ∧ off ≤ 0xBF)) →
    let s' := { s with inputs := s.inputs.tail, response := .written }
    (off = 0x00 → step s = .next { s' with cmdl := v, busy := true }) ∧
    (0x40 ≤ off → off ≤ 0x7F →
      ∃ m : Memory,
        step s = .next { s' with mem := m } ∧
        (s.mem.wf = true → ∀ i < widthBytes n, (Memory.read m (off + i)).toNat = v.toNat / 2 ^ (8 * i) % 256) ∧
        (∀ k, k < off ∨ off + widthBytes n ≤ k → Memory.read m k = Memory.read s.mem k)) ∧
    (off ≠ 0x00 → ¬(0x40 ≤ off ∧ off ≤ 0x7F) → step s = .next s')

/-- Mixed widths see one little-endian byte array: an 8-bit read after a 32-bit write to BLK, and a 32-bit read
after four 8-bit writes (20_memory.md R58). -/
def Obligations.MixedWidthReadBack : Prop :=
  ∀ (s : State) (k : Nat) (rest : List Input), s.mem.wf = true → s.busy = false → k < 16 →
    (∀ (v : Word) (i : Nat), i < 4 → s.inputs = [wr32 (0x40 + 4 * k) v, rd8 (0x40 + 4 * k + i)] ++ rest →
      ∃ (t : State) (x : Word), Sys2Proof.core.run 2 s = .next t ∧ t.response = .data .byte x ∧
        x.toNat = v.toNat / 2 ^ (8 * i) % 256) ∧
    (∀ b0 b1 b2 b3 : Byte,
      s.inputs = [wr8 (0x40 + 4 * k) b0, wr8 (0x40 + 4 * k + 1) b1, wr8 (0x40 + 4 * k + 2) b2,
        wr8 (0x40 + 4 * k + 3) b3, rd32 (0x40 + 4 * k)] ++ rest →
      ∃ (t : State) (x : Word), Sys2Proof.core.run 5 s = .next t ∧ t.response = .data .word x ∧
        x.toNat = b0.toNat + 2 ^ 8 * b1.toNat + 2 ^ 16 * b2.toNat + 2 ^ 24 * b3.toNat)

/-- A 32-bit host write of v to BLK + 4k gives MD5 the message word v, and SHA-1 and SHA-256 its byte swap
(20_memory.md R62). -/
def Obligations.BusWordsToMessageWords : Prop :=
  ∀ (s : State) (k : Nat) (v : Word) (rest : List Input), s.mem.wf = true → s.busy = false → k < 16 →
    s.inputs = wr32 (0x40 + 4 * k) v :: rest →
    ∃ t, step s = .next t ∧
      (leWords t.blk).getD k 0 = v ∧
      ((beWords t.blk).getD k 0).toNat =
        v.toNat % 2 ^ 8 * 2 ^ 24 + v.toNat / 2 ^ 8 % 2 ^ 8 * 2 ^ 16 + v.toNat / 2 ^ 16 % 2 ^ 8 * 2 ^ 8 +
        v.toNat / 2 ^ 24

/-! ## Steps, reset and runs -/

/-- A step whose next event is a completion runs the pending word: when it decodes to i, the step is exec of i at that
state, the event taken, and then BUSY cleared (40_commands.md R100). That a pending command also completes when no
event is left is the model's reading of 70_reset_and_hazards.md R289, log 4; that CMDL's bits are 0 after a completion
is the model's choice, log 5. With no command pending the step changes nothing but the event list (log 2).
A reset step leaves the reset state with the events after it still to come (70_reset_and_hazards.md R280; that they
come is the model's choice, log 1). A word placed with withFetchWord is what the next step runs (log 12). -/
def Obligations.StepRunsDecodedCommand : Prop :=
  (∀ (s t : State) (i : Instr) (rest : List Input), s.inputs = .complete :: rest → s.busy = true →
    decode s.cmdl = .cmd i → exec i { s with inputs := rest } = .next t →
    step s = .next { t with cmdl := 0, busy := false }) ∧
  (∀ (s t : State) (i : Instr), s.inputs = [] → s.busy = true → decode s.cmdl = .cmd i → exec i s = .next t →
    step s = .next { t with cmdl := 0, busy := false }) ∧
  (∀ (s : State) (rest : List Input), s.inputs = .complete :: rest → s.busy = false →
    step s = .next { s with inputs := rest }) ∧
  (∀ s : State, s.inputs = [] → s.busy = false → step s = .next s) ∧
  (∀ (s : State) (rest : List Input), s.inputs = .reset :: rest → step s = .next { State.reset with inputs := rest }) ∧
  (∀ (s t : State) (i : Instr) (w : Nat), w < 2 ^ 32 → decode (BitVec.ofNat 32 w) = .cmd i →
    exec i { s with cmdl := BitVec.ofNat 32 w, busy := true } = .next t →
    step (s.withFetchWord 32 w) = .next { t with cmdl := 0, busy := false })

/-- Reset from any state, a pending command among it: every element takes its reset value, and the STATUS word is 0
(10_state.md R36, 70_reset_and_hazards.md R280). -/
def Obligations.ResetClearsEverything : Prop :=
  ∀ (s : State) (rest : List Input), s.inputs = .reset :: rest →
    ∃ t, step s = .next t ∧
      t.hash = ⟨0, 0, 0, 0, 0, 0, 0, 0⟩ ∧ (∀ k, Memory.read t.mem k = 0) ∧ t.mlen = 0 ∧ t.busy = false ∧
      t.phase = .idle ∧ t.alg = .md5 ∧ t.err = none ∧ t.hexv = false ∧ statusWord t = 0x00000000

/-- The invariant holds at reset (10_state.md R36). -/
def Obligations.ResetMeetsInvariant : Prop := State.reset.Inv

/-- Every step keeps the invariant: MLEN within MSG_MAX and a multiple of 64 in ABSORB, the unused H words 0, HEXV
set only while HEX encodes H, the storage canonical (10_state.md R22, R32, R33). -/
def Obligations.StepKeepsInvariant : Prop :=
  ∀ s t : State, s.Inv → step s = .next t → t.Inv

/-- A step faults exactly on the host accesses of 60_exceptions.md R254, with the fault named there, and no step is
ever refused. -/
def Obligations.StepFaultsExactlyOnHostFaults : Prop :=
  ∀ s : State, (∀ f, step s = .fault f ↔ s.hostFault = some f) ∧ ∀ r, step s ≠ .refused r

/-- Every issued command completes, is abandoned by a reset, or sees the run stop on a host fault: whatever events are
still to come, the run passes at most that many of them with the block unchanged and the command still pending, and
then the next step completes the command, resets the block, or faults (70_reset_and_hazards.md R289, R280, R284). That
a pending command completes when no event is left is the model's reading of R289, log 4; that CMDL's bits are 0 after
a completion is the model's choice, log 5, and that the events after a reset still come is log 1. -/
def Obligations.PendingCommandCompletes : Prop :=
  ∀ s : State, s.busy = true →
    ∃ (k : Nat) (u : State), k ≤ s.inputs.length ∧ Sys2Proof.core.run k s = .next u ∧
      u = { s with inputs := s.inputs.drop k, response := u.response } ∧
      (((u.inputs = [] ∨ ∃ rest, u.inputs = .complete :: rest) ∧
          ∃ t : State, runWord s.cmdl { u with inputs := u.inputs.tail } = .next t ∧
            step u = .next { t with cmdl := 0, busy := false }) ∨
       (∃ rest, u.inputs = .reset :: rest ∧ step u = .next { State.reset with inputs := rest }) ∨
       (∃ f : Fault, u.hostFault = some f ∧ step u = .fault f))

/-- Timing does not affect results: however many STATUS reads come before the completion, the state after it is the
one an immediate completion gives, but for the last answer on the bus (70_reset_and_hazards.md R288). -/
def Obligations.TimingDoesNotAffectResult : Prop :=
  ∀ (s t : State) (k : Nat) (rest : List Input), s.busy = true → s.inputs = .complete :: rest → step s = .next t →
    ∃ x : Response,
      Sys2Proof.core.run (k + 1) { s with inputs := List.replicate k (rd32 0x04) ++ s.inputs } =
        .next { t with response := x }

/-- The digest sequence law: from any state with BUSY = 0, the host sequence of 40_commands.md R110 ends with the
hash state of the source's whole-message engine in H, its digest in HEX, and DONE, for every message of at most
MSG_MAX bytes, every algorithm and every number of polls. Here BLK is written byte by byte, and every wait polls the
same number of times; writes of other widths store the same bytes (HostWrites), and polls do not matter
(TimingDoesNotAffectResult). -/
def Obligations.DigestSequenceLaw : Prop :=
  ∀ (alg : Alg) (m : List Byte) (polls : Nat) (s : State) (rest : List Input),
    s.mem.wf = true → s.busy = false → m.length ≤ 2 ^ 61 - 1 → s.inputs = digestRun polls alg m ++ rest →
    ∃ t : State, Sys2Proof.core.run (digestRun polls alg m).length s = .next t ∧
      t.phase = .done ∧ t.alg = alg ∧ t.err = none ∧ t.hexv = true ∧ t.mlen.toNat = m.length ∧
      t.hash = engineState alg m ∧ (∀ x ∈ t.hash.toList.drop (nw alg), x = 0) ∧
      t.hex = digest alg m ++ List.replicate (64 - 2 * dl alg) 0 ∧
      t.busy = false ∧ t.inputs = rest

/-- Two canonical memories that read the same everywhere are the same data (the model's own form, log 6). -/
def Obligations.CanonicalMemoriesEqual : Prop :=
  ∀ m m' : Memory, m.wf = true → m'.wf = true → (∀ k, Memory.read m k = Memory.read m' k) → m = m'
end

