-- ==== Sys2Proof/Laws/Memory.lean ====
section
/-! SUPPORT. The laws of the byte storage: a read after a write, what a write leaves alone, and that every
operation keeps the canonical form. -/

namespace Sys2Proof.Laws

open Sys2Proof.Machine

@[simp] theorem read_nil (a : Nat) : Memory.read [] a = 0 := rfl

@[simp] theorem readBytes_length (m : Memory) (a n : Nat) : (Memory.readBytes m a n).length = n := by
  induction n generalizing a with
  | zero => rfl
  | succ n ih => simp [Memory.readBytes, ih]

theorem readBytes_getElem (m : Memory) (a n i : Nat) (h : i < (Memory.readBytes m a n).length) :
    (Memory.readBytes m a n)[i] = Memory.read m (a + i) := by
  induction n generalizing a i with
  | zero => simp [Memory.readBytes] at h
  | succ n ih =>
    cases i with
    | zero => rfl
    | succ i =>
      simp only [Memory.readBytes, List.getElem_cons_succ, ih]
      congr 1; omega

theorem readBytes_eq_map (m : Memory) (a n : Nat) :
    Memory.readBytes m a n = (List.range n).map fun i => Memory.read m (a + i) := by
  apply List.ext_getElem <;> simp [readBytes_getElem]

/-- The first `k` of `n` bytes. -/
theorem readBytes_take (m : Memory) (a n k : Nat) (h : k ≤ n) :
    (Memory.readBytes m a n).take k = Memory.readBytes m a k := by
  apply List.ext_getElem
  · simp [h]
  · intro i h1 h2; simp [readBytes_getElem]

/-- Equal bytes give equal byte lists. -/
theorem readBytes_congr {m m' : Memory} {a n : Nat}
    (h : ∀ i < n, Memory.read m' (a + i) = Memory.read m (a + i)) :
    Memory.readBytes m' a n = Memory.readBytes m a n := by
  rw [readBytes_eq_map, readBytes_eq_map]
  exact List.map_congr_left fun i hi => h i (List.mem_range.mp hi)

/-- No entry below the lower bound of a canonical memory. -/
theorem read_below {m : Memory} {lo a : Nat} (h : Memory.wfFrom lo m = true) (ha : a < lo) :
    Memory.read m a = 0 := by
  induction m generalizing lo with
  | nil => rfl
  | cons c m ih =>
    obtain ⟨k, b⟩ := c
    simp only [Memory.wfFrom, Bool.and_eq_true, decide_eq_true_eq] at h
    have hk : k ≠ a := by omega
    simp only [Memory.read, hk, if_false]
    exact ih h.2 (by omega)

theorem wfFrom_mono {m : Memory} {lo lo' : Nat} (hl : lo' ≤ lo) (h : Memory.wfFrom lo m = true) :
    Memory.wfFrom lo' m = true := by
  cases m with
  | nil => rfl
  | cons c m =>
    obtain ⟨k, b⟩ := c
    simp only [Memory.wfFrom, Bool.and_eq_true, decide_eq_true_eq] at h ⊢
    exact ⟨⟨by omega, h.1.2⟩, h.2⟩

/-- A write leaves every other offset alone. -/
theorem read_write_other (m : Memory) (a a' : Nat) (b : Byte) (h : a' ≠ a) :
    Memory.read (Memory.write m a b) a' = Memory.read m a' := by
  induction m with
  | nil =>
    unfold Memory.write
    split <;> simp [Memory.read, Memory.unlisted, Ne.symm h]
  | cons c m ih =>
    obtain ⟨k, c⟩ := c
    unfold Memory.write
    split_ifs <;> simp_all [Memory.read, Ne.symm]

/-- A read after a write to the same offset gives the byte written. -/
theorem read_write_same {m : Memory} {lo : Nat} (h : Memory.wfFrom lo m = true) (a : Nat) (b : Byte) :
    Memory.read (Memory.write m a b) a = b := by
  induction m generalizing lo with
  | nil =>
    unfold Memory.write
    split <;> simp_all [Memory.read, Memory.unlisted]
  | cons c m ih =>
    obtain ⟨k, c⟩ := c
    have h' := h
    simp only [Memory.wfFrom, Bool.and_eq_true, decide_eq_true_eq] at h
    unfold Memory.write
    split_ifs with h1 h2 h3 h4
    · rw [h2]
      exact read_below (lo := k) (by simp [Memory.wfFrom, h.1.2, h.2]) h1
    · simp [Memory.read]
    · rw [h4]
      exact read_below h.2 (by omega)
    · simp [Memory.read]
    · have : k ≠ a := fun e => h3 e.symm
      simp only [Memory.read, this, if_false]
      exact ih h.2

/-- A write keeps the canonical form. -/
theorem wfFrom_write {m : Memory} {lo : Nat} (h : Memory.wfFrom lo m = true) (a : Nat) (b : Byte)
    (hl : lo ≤ a) : Memory.wfFrom lo (Memory.write m a b) = true := by
  induction m generalizing lo with
  | nil =>
    unfold Memory.write
    split_ifs with hb
    · rfl
    · simp [Memory.wfFrom, hl, hb]
  | cons c m ih =>
    obtain ⟨k, c⟩ := c
    have h' := h
    simp only [Memory.wfFrom, Bool.and_eq_true, decide_eq_true_eq] at h
    unfold Memory.write
    split_ifs with h1 h2 h3 h4
    · exact h'
    · simp only [Memory.wfFrom, Bool.and_eq_true, decide_eq_true_eq]
      exact ⟨⟨hl, h2⟩, ⟨by omega, h.1.2⟩, h.2⟩
    · exact wfFrom_mono (by omega) h.2
    · simp only [Memory.wfFrom, Bool.and_eq_true, decide_eq_true_eq]
      exact ⟨⟨hl, h4⟩, h3 ▸ h.2⟩
    · simp only [Memory.wfFrom, Bool.and_eq_true, decide_eq_true_eq]
      exact ⟨h.1, ih h.2 (by omega)⟩

theorem wf_write {m : Memory} (h : m.wf = true) (a : Nat) (b : Byte) : (Memory.write m a b).wf = true :=
  wfFrom_write h a b (Nat.zero_le a)

theorem wf_writeBytes {m : Memory} (h : m.wf = true) (a : Nat) (bs : List Byte) :
    (Memory.writeBytes m a bs).wf = true := by
  induction bs generalizing m a with
  | nil => exact h
  | cons b bs ih => exact ih (wf_write h a b) (a + 1)

/-- A run of writes leaves every offset outside it alone. -/
theorem read_writeBytes_outside (m : Memory) (a : Nat) (bs : List Byte) (a' : Nat)
    (h : a' < a ∨ a + bs.length ≤ a') :
    Memory.read (Memory.writeBytes m a bs) a' = Memory.read m a' := by
  induction bs generalizing m a with
  | nil => rfl
  | cons b bs ih =>
    simp only [List.length_cons] at h
    rw [Memory.writeBytes, ih _ _ (by omega), read_write_other _ _ _ _ (by omega)]

/-- A read inside a run of writes gives the byte written there. -/
theorem read_writeBytes_inside {m : Memory} (hm : m.wf = true) (a : Nat) (bs : List Byte) (i : Nat)
    (h : i < bs.length) : Memory.read (Memory.writeBytes m a bs) (a + i) = bs[i] := by
  induction bs generalizing m a i with
  | nil => simp at h
  | cons b bs ih =>
    cases i with
    | zero =>
      rw [Memory.writeBytes, read_writeBytes_outside _ _ _ _ (by omega)]
      exact read_write_same hm a b
    | succ i =>
      have := ih (wf_write hm a b) (a + 1) i (by simpa using h)
      rw [show a + 1 + i = a + (i + 1) by omega] at this
      simpa [Memory.writeBytes] using this

/-- Reading back the whole run gives the bytes written. -/
theorem readBytes_writeBytes {m : Memory} (hm : m.wf = true) (a : Nat) (bs : List Byte) :
    Memory.readBytes (Memory.writeBytes m a bs) a bs.length = bs := by
  apply List.ext_getElem
  · simp
  · intro i h1 h2
    rw [readBytes_getElem, read_writeBytes_inside hm]

/-- Reading a range that a run of writes does not meet. -/
theorem readBytes_writeBytes_outside (m : Memory) (a : Nat) (bs : List Byte) (a' n : Nat)
    (h : a' + n ≤ a ∨ a + bs.length ≤ a') :
    Memory.readBytes (Memory.writeBytes m a bs) a' n = Memory.readBytes m a' n :=
  readBytes_congr fun i hi => read_writeBytes_outside _ _ _ _ (by omega)

/-- A write inside BLK or HEX lists no other offset. -/
theorem inBuffers_write {m : Memory} (h : m.inBuffers = true) (a : Nat) (b : Byte)
    (h1 : 0x40 ≤ a) (h2 : a ≤ 0xBF) : (Memory.write m a b).inBuffers = true := by
  induction m with
  | nil =>
    unfold Memory.write
    split <;> simp [Memory.inBuffers, h1, h2]
  | cons c m ih =>
    obtain ⟨k, c⟩ := c
    have cons_iff : ∀ (k : Nat) (c : Byte) (m : Memory),
        Memory.inBuffers ((k, c) :: m) = true ↔ (0x40 ≤ k ∧ k ≤ 0xBF) ∧ Memory.inBuffers m = true := by
      intro k c m; simp [Memory.inBuffers]
    rw [cons_iff] at h
    unfold Memory.write
    split_ifs
    · exact (cons_iff k c m).mpr h
    · exact (cons_iff _ _ _).mpr ⟨⟨h1, h2⟩, (cons_iff k c m).mpr h⟩
    · exact h.2
    · exact (cons_iff _ _ _).mpr ⟨⟨h1, h2⟩, h.2⟩
    · exact (cons_iff _ _ _).mpr ⟨h.1, ih h.2⟩

theorem inBuffers_writeBytes {m : Memory} (h : m.inBuffers = true) (a : Nat) (bs : List Byte)
    (h1 : 0x40 ≤ a) (h2 : a + bs.length ≤ 0xC0) : (Memory.writeBytes m a bs).inBuffers = true := by
  induction bs generalizing m a with
  | nil => exact h
  | cons b bs ih =>
    simp only [List.length_cons] at h2
    exact ih (inBuffers_write h a b h1 (by omega)) (a + 1) (by omega) (by omega)

end Sys2Proof.Laws
end

