-- ==== Sys2Proof/Laws/State.lean ====
section
/-! SUPPORT. What each named update of the state does to each field: one lemma per field per update, so that no
later proof unfolds a record update. -/

namespace Sys2Proof.Laws

open Sys2Proof.Machine

/-! ## `latchCommand` -/

@[simp] theorem latchCommand_hash (v : Word) (s : State) : (latchCommand v s).hash = s.hash := rfl
@[simp] theorem latchCommand_mem (v : Word) (s : State) : (latchCommand v s).mem = s.mem := rfl
@[simp] theorem latchCommand_mlen (v : Word) (s : State) : (latchCommand v s).mlen = s.mlen := rfl
@[simp] theorem latchCommand_busy (v : Word) (s : State) : (latchCommand v s).busy = true := rfl
@[simp] theorem latchCommand_phase (v : Word) (s : State) : (latchCommand v s).phase = s.phase := rfl
@[simp] theorem latchCommand_alg (v : Word) (s : State) : (latchCommand v s).alg = s.alg := rfl
@[simp] theorem latchCommand_err (v : Word) (s : State) : (latchCommand v s).err = s.err := rfl
@[simp] theorem latchCommand_hexv (v : Word) (s : State) : (latchCommand v s).hexv = s.hexv := rfl
@[simp] theorem latchCommand_cmdl (v : Word) (s : State) : (latchCommand v s).cmdl = v := rfl
@[simp] theorem latchCommand_inputs (v : Word) (s : State) : (latchCommand v s).inputs = s.inputs := rfl
@[simp] theorem latchCommand_response (v : Word) (s : State) : (latchCommand v s).response = s.response := rfl

/-! ## `retire` -/

@[simp] theorem retire_hash (s : State) : (retire s).hash = s.hash := rfl
@[simp] theorem retire_mem (s : State) : (retire s).mem = s.mem := rfl
@[simp] theorem retire_mlen (s : State) : (retire s).mlen = s.mlen := rfl
@[simp] theorem retire_busy (s : State) : (retire s).busy = false := rfl
@[simp] theorem retire_phase (s : State) : (retire s).phase = s.phase := rfl
@[simp] theorem retire_alg (s : State) : (retire s).alg = s.alg := rfl
@[simp] theorem retire_err (s : State) : (retire s).err = s.err := rfl
@[simp] theorem retire_hexv (s : State) : (retire s).hexv = s.hexv := rfl
@[simp] theorem retire_cmdl (s : State) : (retire s).cmdl = 0 := rfl
@[simp] theorem retire_inputs (s : State) : (retire s).inputs = s.inputs := rfl
@[simp] theorem retire_response (s : State) : (retire s).response = s.response := rfl

/-! ## `resetBlock` -/

@[simp] theorem resetBlock_hash (s : State) : (resetBlock s).hash = State.reset.hash := rfl
@[simp] theorem resetBlock_mem (s : State) : (resetBlock s).mem = State.reset.mem := rfl
@[simp] theorem resetBlock_mlen (s : State) : (resetBlock s).mlen = State.reset.mlen := rfl
@[simp] theorem resetBlock_busy (s : State) : (resetBlock s).busy = State.reset.busy := rfl
@[simp] theorem resetBlock_phase (s : State) : (resetBlock s).phase = State.reset.phase := rfl
@[simp] theorem resetBlock_alg (s : State) : (resetBlock s).alg = State.reset.alg := rfl
@[simp] theorem resetBlock_err (s : State) : (resetBlock s).err = State.reset.err := rfl
@[simp] theorem resetBlock_hexv (s : State) : (resetBlock s).hexv = State.reset.hexv := rfl
@[simp] theorem resetBlock_cmdl (s : State) : (resetBlock s).cmdl = State.reset.cmdl := rfl
@[simp] theorem resetBlock_inputs (s : State) : (resetBlock s).inputs = s.inputs := rfl
@[simp] theorem resetBlock_response (s : State) : (resetBlock s).response = State.reset.response := rfl

/-! ## `initWith` -/

@[simp] theorem initWith_hash (a : Alg) (s : State) : (initWith a s).hash = iv a := rfl
@[simp] theorem initWith_mem (a : Alg) (s : State) :
    (initWith a s).mem = writeHex (List.replicate 64 0x00) s.mem := by simp only [initWith]
@[simp] theorem initWith_mlen (a : Alg) (s : State) : (initWith a s).mlen = 0 := rfl
@[simp] theorem initWith_busy (a : Alg) (s : State) : (initWith a s).busy = s.busy := rfl
@[simp] theorem initWith_phase (a : Alg) (s : State) : (initWith a s).phase = .absorb := rfl
@[simp] theorem initWith_alg (a : Alg) (s : State) : (initWith a s).alg = a := rfl
@[simp] theorem initWith_err (a : Alg) (s : State) : (initWith a s).err = none := rfl
@[simp] theorem initWith_hexv (a : Alg) (s : State) : (initWith a s).hexv = false := rfl
@[simp] theorem initWith_cmdl (a : Alg) (s : State) : (initWith a s).cmdl = s.cmdl := rfl
@[simp] theorem initWith_inputs (a : Alg) (s : State) : (initWith a s).inputs = s.inputs := rfl
@[simp] theorem initWith_response (a : Alg) (s : State) : (initWith a s).response = s.response := rfl

/-! ## `absorbBlock` -/

@[simp] theorem absorbBlock_hash (s : State) :
    (absorbBlock s).hash = compressBlock s.alg s.hash (blockOperand s) := rfl
@[simp] theorem absorbBlock_mem (s : State) : (absorbBlock s).mem = s.mem := rfl
@[simp] theorem absorbBlock_mlen (s : State) : (absorbBlock s).mlen = s.mlen + 64 := rfl
@[simp] theorem absorbBlock_busy (s : State) : (absorbBlock s).busy = s.busy := rfl
@[simp] theorem absorbBlock_phase (s : State) : (absorbBlock s).phase = s.phase := rfl
@[simp] theorem absorbBlock_alg (s : State) : (absorbBlock s).alg = s.alg := rfl
@[simp] theorem absorbBlock_err (s : State) : (absorbBlock s).err = s.err := rfl
@[simp] theorem absorbBlock_hexv (s : State) : (absorbBlock s).hexv = false := rfl
@[simp] theorem absorbBlock_cmdl (s : State) : (absorbBlock s).cmdl = s.cmdl := rfl
@[simp] theorem absorbBlock_inputs (s : State) : (absorbBlock s).inputs = s.inputs := rfl
@[simp] theorem absorbBlock_response (s : State) : (absorbBlock s).response = s.response := rfl

/-! ## `absorbTail` -/

@[simp] theorem absorbTail_hash (n : Nat) (s : State) :
    (absorbTail n s).hash =
      (padTail s.alg (tailOperand n s) (s.mlen.toNat + n)).foldl (compressBlock s.alg) s.hash := rfl
@[simp] theorem absorbTail_mem (n : Nat) (s : State) : (absorbTail n s).mem = s.mem := rfl
@[simp] theorem absorbTail_mlen (n : Nat) (s : State) :
    (absorbTail n s).mlen = BitVec.ofNat 64 (s.mlen.toNat + n) := rfl
@[simp] theorem absorbTail_busy (n : Nat) (s : State) : (absorbTail n s).busy = s.busy := rfl
@[simp] theorem absorbTail_phase (n : Nat) (s : State) : (absorbTail n s).phase = .done := rfl
@[simp] theorem absorbTail_alg (n : Nat) (s : State) : (absorbTail n s).alg = s.alg := rfl
@[simp] theorem absorbTail_err (n : Nat) (s : State) : (absorbTail n s).err = s.err := rfl
@[simp] theorem absorbTail_hexv (n : Nat) (s : State) : (absorbTail n s).hexv = false := rfl
@[simp] theorem absorbTail_cmdl (n : Nat) (s : State) : (absorbTail n s).cmdl = s.cmdl := rfl
@[simp] theorem absorbTail_inputs (n : Nat) (s : State) : (absorbTail n s).inputs = s.inputs := rfl
@[simp] theorem absorbTail_response (n : Nat) (s : State) : (absorbTail n s).response = s.response := rfl

/-! ## `writeDigest` -/

@[simp] theorem writeDigest_hash (s : State) : (writeDigest s).hash = s.hash := rfl
@[simp] theorem writeDigest_mem (s : State) :
    (writeDigest s).mem = writeHex (hexBuffer s.alg s.hash) s.mem := rfl
@[simp] theorem writeDigest_mlen (s : State) : (writeDigest s).mlen = s.mlen := rfl
@[simp] theorem writeDigest_busy (s : State) : (writeDigest s).busy = s.busy := rfl
@[simp] theorem writeDigest_phase (s : State) : (writeDigest s).phase = s.phase := rfl
@[simp] theorem writeDigest_alg (s : State) : (writeDigest s).alg = s.alg := rfl
@[simp] theorem writeDigest_err (s : State) : (writeDigest s).err = s.err := rfl
@[simp] theorem writeDigest_hexv (s : State) : (writeDigest s).hexv = true := rfl
@[simp] theorem writeDigest_cmdl (s : State) : (writeDigest s).cmdl = s.cmdl := rfl
@[simp] theorem writeDigest_inputs (s : State) : (writeDigest s).inputs = s.inputs := rfl
@[simp] theorem writeDigest_response (s : State) : (writeDigest s).response = s.response := rfl

/-! ## `raiseError` -/

@[simp] theorem raiseError_hash (e : CmdError) (s : State) : (raiseError e s).hash = s.hash := by
  unfold raiseError; cases s.err <;> rfl
@[simp] theorem raiseError_mem (e : CmdError) (s : State) : (raiseError e s).mem = s.mem := by
  unfold raiseError; cases s.err <;> rfl
@[simp] theorem raiseError_mlen (e : CmdError) (s : State) : (raiseError e s).mlen = s.mlen := by
  unfold raiseError; cases s.err <;> rfl
@[simp] theorem raiseError_busy (e : CmdError) (s : State) : (raiseError e s).busy = s.busy := by
  unfold raiseError; cases s.err <;> rfl
@[simp] theorem raiseError_phase (e : CmdError) (s : State) : (raiseError e s).phase = s.phase := by
  unfold raiseError; cases s.err <;> rfl
@[simp] theorem raiseError_alg (e : CmdError) (s : State) : (raiseError e s).alg = s.alg := by
  unfold raiseError; cases s.err <;> rfl
/-- STATUS.ERR keeps the first error (60_exceptions.md R252). -/
@[simp] theorem raiseError_err (e : CmdError) (s : State) : (raiseError e s).err = some (s.err.getD e) := by
  unfold raiseError; cases h : s.err <;> simp [h]
@[simp] theorem raiseError_hexv (e : CmdError) (s : State) : (raiseError e s).hexv = s.hexv := by
  unfold raiseError; cases s.err <;> rfl
@[simp] theorem raiseError_cmdl (e : CmdError) (s : State) : (raiseError e s).cmdl = s.cmdl := by
  unfold raiseError; cases s.err <;> rfl
@[simp] theorem raiseError_inputs (e : CmdError) (s : State) : (raiseError e s).inputs = s.inputs := by
  unfold raiseError; cases s.err <;> rfl
@[simp] theorem raiseError_response (e : CmdError) (s : State) : (raiseError e s).response = s.response := by
  unfold raiseError; cases s.err <;> rfl

end Sys2Proof.Laws
end

