-- ==== Sys2Proof/Laws/Commands.lean ====
section
/-! SUPPORT. What the shared operations and the meanings of the commands can do: sizes, the effect of writing HEX
on the two buffers, and one inversion lemma per meaning. -/

namespace Sys2Proof.Laws

open Sys2Proof.Machine

/-! ## Sizes -/

@[simp] theorem blk_length (s : State) : s.blk.length = 64 := readBytes_length _ _ _

@[simp] theorem hex_length (s : State) : s.hex.length = 64 := readBytes_length _ _ _

@[simp] theorem lenField_length (alg : Alg) (len : Nat) : (lenField alg len).length = 8 := by
  cases alg <;> rfl

@[simp] theorem hexEncode_length (d : List Byte) : (hexEncode d).length = 2 * d.length := by
  induction d with
  | nil => rfl
  | cons b d ih => simp only [hexEncode, List.flatMap_cons, List.length_append] at ih ⊢; simp [ih]; omega

@[simp] theorem serialize_length (alg : Alg) (h : HashRegs) : (serialize alg h).length = dl alg := by
  cases alg <;> rfl

@[simp] theorem hexBuffer_length (alg : Alg) (h : HashRegs) : (hexBuffer alg h).length = 64 := by
  simp only [hexBuffer, List.length_append, hexEncode_length, serialize_length, List.length_replicate]
  cases alg <;> rfl

theorem tailOperand_length (n : Nat) (s : State) (h : n ≤ 64) : (tailOperand n s).length = n := by
  simp [tailOperand, h]

/-! ## The words a compression passes through (42_md5.md R161, 43_sha1.md R188) -/

theorem compressBlock_md5 (h : HashRegs) (b : List Byte) : compressBlock .md5 h b = md5Compress h b := rfl

theorem compressBlock_sha1 (h : HashRegs) (b : List Byte) : compressBlock .sha1 h b = sha1Compress h b := rfl

theorem compressBlock_sha256 (h : HashRegs) (b : List Byte) : compressBlock .sha256 h b = sha256Compress h b := rfl

@[simp] theorem md5FeedForward_h4 (h : HashRegs) (r : Md5Regs) : (md5FeedForward h r).h4 = h.h4 := rfl
@[simp] theorem md5FeedForward_h5 (h : HashRegs) (r : Md5Regs) : (md5FeedForward h r).h5 = h.h5 := rfl
@[simp] theorem md5FeedForward_h6 (h : HashRegs) (r : Md5Regs) : (md5FeedForward h r).h6 = h.h6 := rfl
@[simp] theorem md5FeedForward_h7 (h : HashRegs) (r : Md5Regs) : (md5FeedForward h r).h7 = h.h7 := rfl
@[simp] theorem md5Compress_h4 (h : HashRegs) (b : List Byte) : (md5Compress h b).h4 = h.h4 := by
  rw [md5Compress, md5FeedForward_h4]
@[simp] theorem md5Compress_h5 (h : HashRegs) (b : List Byte) : (md5Compress h b).h5 = h.h5 := by
  rw [md5Compress, md5FeedForward_h5]
@[simp] theorem md5Compress_h6 (h : HashRegs) (b : List Byte) : (md5Compress h b).h6 = h.h6 := by
  rw [md5Compress, md5FeedForward_h6]
@[simp] theorem md5Compress_h7 (h : HashRegs) (b : List Byte) : (md5Compress h b).h7 = h.h7 := by
  rw [md5Compress, md5FeedForward_h7]
@[simp] theorem sha1FeedForward_h5 (h : HashRegs) (r : Sha1Regs) : (sha1FeedForward h r).h5 = h.h5 := rfl
@[simp] theorem sha1FeedForward_h6 (h : HashRegs) (r : Sha1Regs) : (sha1FeedForward h r).h6 = h.h6 := rfl
@[simp] theorem sha1FeedForward_h7 (h : HashRegs) (r : Sha1Regs) : (sha1FeedForward h r).h7 = h.h7 := rfl
@[simp] theorem sha1Compress_h5 (h : HashRegs) (b : List Byte) : (sha1Compress h b).h5 = h.h5 := by
  rw [sha1Compress, sha1FeedForward_h5]
@[simp] theorem sha1Compress_h6 (h : HashRegs) (b : List Byte) : (sha1Compress h b).h6 = h.h6 := by
  rw [sha1Compress, sha1FeedForward_h6]
@[simp] theorem sha1Compress_h7 (h : HashRegs) (b : List Byte) : (sha1Compress h b).h7 = h.h7 := by
  rw [sha1Compress, sha1FeedForward_h7]

theorem drop_md5 (h : HashRegs) : h.toList.drop (nw .md5) = [h.h4, h.h5, h.h6, h.h7] := rfl

theorem drop_sha1 (h : HashRegs) : h.toList.drop (nw .sha1) = [h.h5, h.h6, h.h7] := rfl

theorem drop_sha256 (h : HashRegs) : h.toList.drop (nw .sha256) = [] := rfl

/-! ## Writing HEX -/

/-- Writing HEX leaves every other offset alone. -/
theorem read_writeHex_outside (bs : List Byte) (m : Memory) (a : Nat) (hb : bs.length = 64)
    (h : a < 0x80 ∨ 0xC0 ≤ a) : Memory.read (writeHex bs m) a = Memory.read m a :=
  read_writeBytes_outside _ _ _ _ (by simp only [hexBase, hb]; omega)

/-- Writing HEX leaves BLK alone. -/
theorem blk_writeHex (bs : List Byte) (m : Memory) (hb : bs.length = 64) :
    Memory.readBytes (writeHex bs m) blkBase 64 = Memory.readBytes m blkBase 64 :=
  readBytes_congr fun i hi => read_writeHex_outside bs m _ hb (by simp only [blkBase]; omega)

/-- HEX holds the bytes written to it. -/
theorem hex_writeHex (bs : List Byte) {m : Memory} (hm : m.wf = true) (hb : bs.length = 64) :
    Memory.readBytes (writeHex bs m) hexBase 64 = bs := by
  rw [← hb]; exact readBytes_writeBytes hm hexBase bs

theorem wf_writeHex (bs : List Byte) {m : Memory} (hm : m.wf = true) : (writeHex bs m).wf = true :=
  wf_writeBytes hm _ _

theorem inBuffers_writeHex (bs : List Byte) {m : Memory} (hm : m.inBuffers = true) (hb : bs.length = 64) :
    (writeHex bs m).inBuffers = true :=
  inBuffers_writeBytes hm _ _ (by simp [hexBase]) (by simp [hexBase, hb])

/-! ## The meanings -/

theorem passesLimit_eq_true (mlen : DWord) (k : Nat) : passesLimit mlen k = true ↔ msgMax < mlen.toNat + k := by
  simp [passesLimit]

theorem passesLimit_eq_false (mlen : DWord) (k : Nat) : passesLimit mlen k = false ↔ mlen.toNat + k ≤ msgMax := by
  simp [passesLimit]

/-- Everything COMPRESS can do (40_commands.md R107). -/
theorem execCompress_cases {s t : State} (h : execCompress s = .next t) :
    (s.err ≠ none ∧ t = s) ∨
    (s.err = none ∧ s.phase ≠ .absorb ∧ t = raiseError .sequence s) ∨
    (s.err = none ∧ s.phase = .absorb ∧ msgMax < s.mlen.toNat + 64 ∧ t = raiseError .length s) ∨
    (s.err = none ∧ s.phase = .absorb ∧ s.mlen.toNat + 64 ≤ msgMax ∧ t = absorbBlock s) := by
  unfold execCompress at h
  split at h
  · next e he => cases h; exact .inl ⟨by simp [he], rfl⟩
  · next he =>
    split at h
    · next hp =>
      split at h
      · next hl => cases h; exact .inr (.inr (.inl ⟨he, hp, (passesLimit_eq_true _ _).mp hl, rfl⟩))
      · next hl =>
        cases h
        exact .inr (.inr (.inr ⟨he, hp, (passesLimit_eq_false _ _).mp (by simpa using hl), rfl⟩))
    · next hp => cases h; exact .inr (.inl ⟨he, by simp [hp], rfl⟩)
    · next hp => cases h; exact .inr (.inl ⟨he, by simp [hp], rfl⟩)

/-- Everything FINAL n can do (R108). -/
theorem execFinal_cases {n : Nat} {s t : State} (h : execFinal n s = .next t) :
    (s.err ≠ none ∧ t = s) ∨
    (s.err = none ∧ s.phase ≠ .absorb ∧ t = raiseError .sequence s) ∨
    (s.err = none ∧ s.phase = .absorb ∧ t = absorbTail n s) := by
  unfold execFinal at h
  split at h
  · next e he => cases h; exact .inl ⟨by simp [he], rfl⟩
  · next he =>
    split at h
    · next hp => cases h; exact .inr (.inr ⟨he, hp, rfl⟩)
    · next hp => cases h; exact .inr (.inl ⟨he, by simp [hp], rfl⟩)
    · next hp => cases h; exact .inr (.inl ⟨he, by simp [hp], rfl⟩)

/-- Everything HEX can do (R109). -/
theorem execHex_cases {s t : State} (h : execHex s = .next t) :
    (s.err ≠ none ∧ t = s) ∨
    (s.err = none ∧ s.phase = .idle ∧ t = raiseError .sequence s) ∨
    (s.err = none ∧ s.phase ≠ .idle ∧ t = writeDigest s) := by
  unfold execHex at h
  split at h
  · next e he => cases h; exact .inl ⟨by simp [he], rfl⟩
  · next he =>
    split at h
    · next hp => cases h; exact .inr (.inl ⟨he, hp, rfl⟩)
    · next hp => cases h; exact .inr (.inr ⟨he, by simp [hp], rfl⟩)
    · next hp => cases h; exact .inr (.inr ⟨he, by simp [hp], rfl⟩)

/-- The algorithm an INIT loads. -/
def initAlg : Instr → Option Alg
  | .initMd5 => some .md5
  | .initSha1 => some .sha1
  | .initSha256 => some .sha256
  | .nop => none
  | .compress => none
  | .final _ => none
  | .hex => none

/-- Everything a command can do, guards included. -/
theorem exec_cases {i : Instr} {s t : State} (h : exec i s = .next t) :
    (t = s ∧ (i = .nop ∨ s.err ≠ none)) ∨
    (∃ a, initAlg i = some a ∧ t = initWith a s) ∨
    (s.err = none ∧ (i = .compress ∨ (∃ n, i = .final n) ∨ i = .hex) ∧ ∃ e, t = raiseError e s) ∨
    (i = .compress ∧ s.err = none ∧ s.phase = .absorb ∧ s.mlen.toNat + 64 ≤ msgMax ∧ t = absorbBlock s) ∨
    (∃ n, i = .final n ∧ s.err = none ∧ s.phase = .absorb ∧ t = absorbTail n s) ∨
    (i = .hex ∧ s.err = none ∧ s.phase ≠ .idle ∧ t = writeDigest s) := by
  cases i with
  | nop => cases h; exact .inl ⟨rfl, .inl rfl⟩
  | initMd5 => cases h; exact .inr (.inl ⟨.md5, rfl, rfl⟩)
  | initSha1 => cases h; exact .inr (.inl ⟨.sha1, rfl, rfl⟩)
  | initSha256 => cases h; exact .inr (.inl ⟨.sha256, rfl, rfl⟩)
  | compress =>
    obtain ⟨he, rfl⟩ | ⟨he, -, rfl⟩ | ⟨he, -, -, rfl⟩ | ⟨he, hp, hl, rfl⟩ := execCompress_cases h
    · exact .inl ⟨rfl, .inr he⟩
    · exact .inr (.inr (.inl ⟨he, .inl rfl, _, rfl⟩))
    · exact .inr (.inr (.inl ⟨he, .inl rfl, _, rfl⟩))
    · exact .inr (.inr (.inr (.inl ⟨rfl, he, hp, hl, rfl⟩)))
  | final n =>
    obtain ⟨he, rfl⟩ | ⟨he, -, rfl⟩ | ⟨he, hp, rfl⟩ := execFinal_cases h
    · exact .inl ⟨rfl, .inr he⟩
    · exact .inr (.inr (.inl ⟨he, .inr (.inl ⟨n, rfl⟩), _, rfl⟩))
    · exact .inr (.inr (.inr (.inr (.inl ⟨n, rfl, he, hp, rfl⟩))))
  | hex =>
    obtain ⟨he, rfl⟩ | ⟨he, -, rfl⟩ | ⟨he, hp, rfl⟩ := execHex_cases h
    · exact .inl ⟨rfl, .inr he⟩
    · exact .inr (.inr (.inl ⟨he, .inr (.inr rfl), _, rfl⟩))
    · exact .inr (.inr (.inr (.inr (.inr ⟨rfl, he, hp, rfl⟩))))

/-- The words an algorithm does not use are 0 in its IV (40_commands.md R103). -/
theorem iv_unused (a : Alg) : ∀ x ∈ (iv a).toList.drop (nw a), x = 0 := by
  cases a <;> simp [iv, nw, HashRegs.toList, md5IV, sha1IV, sha256IV]

/-! ## No command reads the last answer on the bus -/

theorem blk_setResponse (s : State) (r : Response) : ({ s with response := r } : State).blk = s.blk := rfl

theorem initWith_setResponse (a : Alg) (s : State) (r : Response) :
    initWith a { s with response := r } = { initWith a s with response := r } := by
  simp only [initWith]

theorem absorbBlock_setResponse (s : State) (r : Response) :
    absorbBlock { s with response := r } = { absorbBlock s with response := r } := by
  unfold absorbBlock blockOperand; rw [blk_setResponse]

theorem absorbTail_setResponse (n : Nat) (s : State) (r : Response) :
    absorbTail n { s with response := r } = { absorbTail n s with response := r } := by
  unfold absorbTail tailOperand; rw [blk_setResponse]

theorem writeDigest_setResponse (s : State) (r : Response) :
    writeDigest { s with response := r } = { writeDigest s with response := r } := by
  simp only [writeDigest]

theorem raiseError_setResponse (e : CmdError) (s : State) (r : Response) :
    raiseError e { s with response := r } = { raiseError e s with response := r } := by
  unfold raiseError; cases h : s.err <;> simp [h]

theorem exec_setResponse {i : Instr} {s t : State} (h : exec i s = .next t) (r : Response) :
    exec i { s with response := r } = .next { t with response := r } := by
  cases i with
  | nop => cases h; rfl
  | initMd5 =>
    simp only [exec, execInitMd5, initWith_setResponse, Host.Outcome.next.injEq] at h ⊢; rw [h]
  | initSha1 =>
    simp only [exec, execInitSha1, initWith_setResponse, Host.Outcome.next.injEq] at h ⊢; rw [h]
  | initSha256 =>
    simp only [exec, execInitSha256, initWith_setResponse, Host.Outcome.next.injEq] at h ⊢; rw [h]
  | compress =>
    simp only [exec, execCompress, raiseError_setResponse, absorbBlock_setResponse] at h ⊢
    cases he : s.err <;> cases hp : s.phase <;> simp only [he, hp] at h ⊢ <;> try (cases h; simp [he, hp])
    split at h <;> cases h <;> simp_all
  | final n =>
    simp only [exec, execFinal, raiseError_setResponse, absorbTail_setResponse] at h ⊢
    cases he : s.err <;> cases hp : s.phase <;> simp only [he, hp] at h ⊢ <;> cases h <;> simp [he, hp]
  | hex =>
    simp only [exec, execHex, raiseError_setResponse, writeDigest_setResponse] at h ⊢
    cases he : s.err <;> cases hp : s.phase <;> simp only [he, hp] at h ⊢ <;> cases h <;> simp [he, hp]

end Sys2Proof.Laws
end

