-- ==== Sys2Proof/Laws/Bus.lean ====
section
/-! SUPPORT. What a host access can do: one inversion lemma per access operation. -/

namespace Sys2Proof.Laws

open Sys2Proof.Machine

@[simp] theorem lanes_length (n : Nat) (v : Word) : (lanes n v).length = n := by
  induction n generalizing v with
  | zero => rfl
  | succ n ih => simp [lanes, ih]

theorem widthBytes_cases (n : Width) : widthBytes n = 1 ∨ widthBytes n = 2 ∨ widthBytes n = 4 := by
  cases n <;> simp [widthBytes]

theorem windowOffset_eq_some {rel : Int} {off : Nat} :
    windowOffset rel = some off ↔ rel = off ∧ off ≤ 0xFF := by
  unfold windowOffset
  split_ifs with h
  · rw [Option.some.injEq]; omega
  · constructor
    · intro e; cases e
    · intro e; omega

/-- A legal access in BLK stays in BLK (20_memory.md R52). -/
theorem legal_blk {off : Nat} {n : Width} (h : legal off n = true) (h1 : 0x40 ≤ off) (h2 : off ≤ 0x7F) :
    off + widthBytes n ≤ 0x80 := by
  simp only [legal, Bool.and_eq_true, decide_eq_true_eq] at h
  obtain h' | h' | h' := widthBytes_cases n <;> rw [h'] at h ⊢ <;> omega

/-- Everything a host write can do (R54). -/
theorem memWrite_cases {off : Nat} {n : Width} {v : Word} {s t : State} (h : memWrite off n v s = .next t) :
    legal off n = true ∧ s.busy = false ∧
    ((off = 0x00 ∧ t = latchCommand v s) ∨
     ((0x40 ≤ off ∧ off ≤ 0x7F) ∧ t = { s with mem := Memory.writeBytes s.mem off (lanes (widthBytes n) v) }) ∨
     (off ≠ 0x00 ∧ ¬(0x40 ≤ off ∧ off ≤ 0x7F) ∧ t = s)) := by
  unfold memWrite at h
  split_ifs at h with h1 h2 h3 h4
  all_goals
    cases h
    refine ⟨by simpa using h1, by simpa using h2, ?_⟩
  · exact .inl ⟨h3, rfl⟩
  · exact .inr (.inl ⟨h4, rfl⟩)
  · exact .inr (.inr ⟨h3, h4, rfl⟩)

/-- Everything a host access can do: an address outside the window, a read, or a write (R50, R54, R57). -/
theorem busAccess_cases {a : Access} {s t : State} (h : busAccess a s = .next t) :
    (windowOffset a.rel = none ∧ t = { s with response := .unselected }) ∨
    (∃ off n v, windowOffset a.rel = some off ∧ a.op = .read n ∧ memRead off n s = .data v ∧
      t = { s with response := .data n v }) ∨
    (∃ off n v, windowOffset a.rel = some off ∧ a.op = .write n v ∧
      memWrite off n v { s with response := .written } = .next t) := by
  unfold busAccess at h
  split at h
  · next hw => cases h; exact .inl ⟨hw, rfl⟩
  · next off hw =>
    split at h
    · next n hn =>
      split at h
      · next v hv => cases h; exact .inr (.inl ⟨off, n, v, hw, hn, hv, rfl⟩)
      · cases h
    · next n v hn => exact .inr (.inr ⟨off, n, v, hw, hn, h⟩)

end Sys2Proof.Laws
end

