-- ==== Sys2Proof/Laws/Step.lean ====
section
/-! SUPPORT. What one step can do, once: every later proof about `step` cites `step_cases`. -/

namespace Sys2Proof.Laws

open Sys2Proof.Machine

/-- Everything a completion can do: nothing where no command is pending; otherwise the error of decode or the
command's meaning, and then the command is retired (40_commands.md R100). -/
theorem complete_cases {s t : State} (h : complete s = .next t) :
    (s.busy = false ∧ t = s) ∨
    (s.busy = true ∧ ∃ e, decode s.cmdl = .err e ∧ t = retire (raiseError e s)) ∨
    (s.busy = true ∧ ∃ i u, decode s.cmdl = .cmd i ∧ exec i s = .next u ∧ t = retire u) := by
  unfold complete at h
  split_ifs at h with hb
  · unfold runWord at h
    split at h
    · next e he => cases h; exact .inr (.inl ⟨hb, e, he, rfl⟩)
    · next i hi =>
      cases hu : exec i s with
      | next u => rw [hu] at h; cases h; exact .inr (.inr ⟨hb, i, u, hi, hu, rfl⟩)
      | fault f => rw [hu] at h; cases h
      | refused r => rw [hu] at h; cases h
  · cases h; exact .inl ⟨by simpa using hb, rfl⟩

/-- The events after the next one. -/
theorem step_nil {s : State} (h : s.inputs = []) : step s = complete s := by
  simp [step, nextEvent, h]

theorem step_complete {s : State} {rest : List Input} (h : s.inputs = .complete :: rest) :
    step s = complete { s with inputs := rest } := by
  simp [step, nextEvent, h]

theorem step_access {s : State} {a : Access} {rest : List Input} (h : s.inputs = .access a :: rest) :
    step s = busAccess a { s with inputs := rest } := by
  simp [step, nextEvent, h]

theorem step_reset {s : State} {rest : List Input} (h : s.inputs = .reset :: rest) :
    step s = .next (resetBlock { s with inputs := rest }) := by
  simp [step, nextEvent, h]

/-- Everything one step can do, by the next event. -/
theorem step_cases {s t : State} (h : step s = .next t) :
    (s.inputs = [] ∧ complete s = .next t) ∨
    (∃ rest, s.inputs = .complete :: rest ∧ complete { s with inputs := rest } = .next t) ∨
    (∃ a rest, s.inputs = .access a :: rest ∧ busAccess a { s with inputs := rest } = .next t) ∨
    (∃ rest, s.inputs = .reset :: rest ∧ t = resetBlock { s with inputs := rest }) := by
  cases hi : s.inputs with
  | nil => exact .inl ⟨rfl, step_nil hi ▸ h⟩
  | cons e rest =>
    cases e with
    | complete => exact .inr (.inl ⟨rest, rfl, step_complete hi ▸ h⟩)
    | access a => exact .inr (.inr (.inl ⟨a, rest, rfl, step_access hi ▸ h⟩))
    | reset =>
      rw [step_reset hi] at h
      cases h
      exact .inr (.inr (.inr ⟨rest, rfl, rfl⟩))

/-! ## Runs of several steps -/

/-- One step of a run. -/
theorem run_next {M : Host.Core} {s u : M.State} (k : Nat) (h : M.step s = .next u) :
    M.run (k + 1) s = M.run k u := by
  rw [Host.Core.run, h]

/-- A run of one step that faults. -/
theorem run_fault {M : Host.Core} {s : M.State} {f : M.Fault} (h : M.step s = .fault f) : M.run 1 s = .fault f := by
  rw [Host.Core.run, h]

/-- A run in two parts. -/
theorem run_add {M : Host.Core} {s u : M.State} (j k : Nat) (h : M.run j s = .next u) :
    M.run (j + k) s = M.run k u := by
  induction j generalizing s with
  | zero => cases h; simp
  | succ j ih =>
    rw [show j + 1 + k = (j + k) + 1 by omega, Host.Core.run]
    rw [Host.Core.run] at h
    cases hs : M.step s with
    | next v => rw [hs] at h; exact ih h
    | fault f => rw [hs] at h; cases h
    | refused r => rw [hs] at h; cases h

/-- One step of the block's run. -/
theorem core_run_next {s u : State} (k : Nat) (h : step s = .next u) :
    Sys2Proof.core.run (k + 1) s = Sys2Proof.core.run k u :=
  run_next (M := Sys2Proof.core) k h

/-- A run of one step. -/
theorem core_run_one {s u : State} (h : step s = .next u) : Sys2Proof.core.run 1 s = .next u :=
  run_next (M := Sys2Proof.core) 0 h

/-- A run of one step that faults. -/
theorem core_run_fault {s : State} {f : Fault} (h : step s = .fault f) : Sys2Proof.core.run 1 s = .fault f :=
  run_fault (M := Sys2Proof.core) h

/-- The block's run in two parts. -/
theorem core_run_add {s u : State} (j k : Nat) (h : Sys2Proof.core.run j s = .next u) :
    Sys2Proof.core.run (j + k) s = Sys2Proof.core.run k u :=
  run_add (M := Sys2Proof.core) j k h

end Sys2Proof.Laws
end

