-- ==== Sys2Proof/Laws/Access.lean ====
section
/-! SUPPORT. What one host access does, and what a step whose next event is a host access does, in the terms the
claims use. -/

namespace Sys2Proof.Laws

open Sys2Proof.Machine

theorem legal_iff (off : Nat) (n : Width) :
    legal off n = true ↔ off % widthBytes n = 0 ∧ (widthBytes n = 4 ∨ (0x40 ≤ off ∧ off ≤ 0xBF)) := by
  simp [legal]

theorem busAccess_unselected {a : Access} (s : State) (h : windowOffset a.rel = none) :
    busAccess a s = .next { s with response := .unselected } := by
  simp only [busAccess, h]

theorem busAccess_read {a : Access} {off : Nat} {n : Width} (s : State) (h : windowOffset a.rel = some off)
    (hn : a.op = .read n) : busAccess a s =
      match memRead off n s with
      | .data v => .next { s with response := .data n v }
      | .fault f => .fault f := by
  cases h' : memRead off n s <;> simp only [busAccess, h, hn, h']

theorem busAccess_write {a : Access} {off : Nat} {n : Width} {v : Word} (s : State)
    (h : windowOffset a.rel = some off) (hn : a.op = .write n v) :
    busAccess a s = memWrite off n v { s with response := .written } := by
  simp only [busAccess, h, hn]

theorem accesses_le {s : State} {off : Nat} {op : BusOp} (h : s.accesses off op) : off ≤ 0xFF := by
  obtain ⟨a, rest, -, h, -⟩ := h
  exact (windowOffset_eq_some.mp h).2

/-- A step whose next event is a host read (20_memory.md R57). -/
theorem step_read {s : State} {off : Nat} {n : Width} (h : s.accesses off (.read n)) : step s =
    match memRead off n { s with inputs := s.inputs.tail } with
    | .data v => .next { s with inputs := s.inputs.tail, response := .data n v }
    | .fault f => .fault f := by
  obtain ⟨a, rest, h1, h2, h3⟩ := h
  rw [step_access h1, busAccess_read _ h2 h3, h1]
  rfl

/-- A step whose next event is a host write (20_memory.md R54). -/
theorem step_write {s : State} {off : Nat} {n : Width} {v : Word} (h : s.accesses off (.write n v)) :
    step s = memWrite off n v { s with inputs := s.inputs.tail, response := .written } := by
  obtain ⟨a, rest, h1, h2, h3⟩ := h
  rw [step_access h1, busAccess_write _ h2 h3, h1]
  rfl

/-- A legal read with BUSY = 0. -/
theorem memRead_idle {s : State} {off : Nat} {n : Width} (hl : legal off n = true) (hb : s.busy = false) :
    memRead off n s = .data (windowValue off n s) := by
  simp [memRead, hl, hb]

/-- A read of STATUS, allowed while BUSY = 1 too. -/
theorem memRead_status (s : State) : memRead 0x04 .word s = .data (statusWord s) := by
  simp [memRead, legal, widthBytes, windowValue]

/-- A legal write to CMD with BUSY = 0. -/
theorem memWrite_cmd {s : State} (v : Word) (hb : s.busy = false) :
    memWrite 0x00 .word v s = .next (latchCommand v s) := by
  simp [memWrite, legal, widthBytes, hb]

/-- A legal write to BLK with BUSY = 0. -/
theorem memWrite_blk {s : State} {off : Nat} {n : Width} (v : Word) (hl : legal off n = true) (hb : s.busy = false)
    (h1 : 0x40 ≤ off) (h2 : off ≤ 0x7F) : memWrite off n v s =
      .next { s with mem := Memory.writeBytes s.mem off (lanes (widthBytes n) v) } := by
  simp [memWrite, hl, hb, h1, h2, show off ≠ 0 by omega]

/-- A legal write to any other location with BUSY = 0: no effect. -/
theorem memWrite_other {s : State} {off : Nat} {n : Width} (v : Word) (hl : legal off n = true)
    (hb : s.busy = false) (h0 : off ≠ 0x00) (h1 : ¬(0x40 ≤ off ∧ off ≤ 0x7F)) :
    memWrite off n v s = .next s := by
  simp only [memWrite, hl, hb, h0, h1]; rfl

/-! ## Steps of a run -/

theorem accesses_of_inputs {s : State} {off : Nat} {op : BusOp} {rest : List Input}
    (h : s.inputs = .access ⟨(off : Int), op⟩ :: rest) (ho : off ≤ 0xFF) : s.accesses off op :=
  ⟨_, rest, h, windowOffset_eq_some.mpr ⟨rfl, ho⟩, rfl⟩

/-- The next event writes BLK. -/
theorem step_write_blk {s : State} {off : Nat} {n : Width} {v : Word} {rest : List Input}
    (h : s.inputs = .access ⟨(off : Int), .write n v⟩ :: rest) (hl : legal off n = true) (hb : s.busy = false)
    (h1 : 0x40 ≤ off) (h2 : off ≤ 0x7F) : step s = .next { s with
      inputs := rest
      response := .written
      mem := Memory.writeBytes s.mem off (lanes (widthBytes n) v) } := by
  rw [step_write (accesses_of_inputs h (by omega)), h]
  exact memWrite_blk (s := { s with inputs := rest, response := .written }) v hl hb h1 h2

/-- The next event issues a command. -/
theorem step_issue {s : State} {v : Word} {rest : List Input}
    (h : s.inputs = .access ⟨((0x00 : Nat) : Int), .write .word v⟩ :: rest) (hb : s.busy = false) :
    step s = .next { s with inputs := rest, response := .written, cmdl := v, busy := true } := by
  rw [step_write (accesses_of_inputs h (by omega)), h]
  exact memWrite_cmd (s := { s with inputs := rest, response := .written }) v hb

/-- The next event is a legal read with BUSY = 0. -/
theorem step_read_idle {s : State} {off : Nat} {n : Width} {rest : List Input}
    (h : s.inputs = .access ⟨(off : Int), .read n⟩ :: rest) (hl : legal off n = true) (hb : s.busy = false)
    (ho : off ≤ 0xFF) :
    step s = .next { s with inputs := rest, response := .data n (windowValue off n s) } := by
  rw [step_read (accesses_of_inputs h ho), h]
  simp only [List.tail_cons]
  rw [show memRead off n { s with inputs := rest } = .data (windowValue off n s) from memRead_idle hl hb]

/-- The next event is a 32-bit read of STATUS. -/
theorem step_poll {s : State} {rest : List Input}
    (h : s.inputs = .access ⟨((0x04 : Nat) : Int), .read .word⟩ :: rest) :
    step s = .next { s with inputs := rest, response := .data .word (statusWord s) } := by
  rw [step_read (accesses_of_inputs h (by omega)), h]
  simp only [List.tail_cons]
  rw [show memRead 4 .word { s with inputs := rest } = .data (statusWord s) from memRead_status _]

/-- The completion of a pending word that decodes to a command which answers a next state. -/
theorem complete_command {s t : State} {i : Instr} (hb : s.busy = true) (hd : decode s.cmdl = .cmd i)
    (he : exec i s = .next t) : complete s = .next (retire t) := by
  simp [complete, hb, runWord, hd, he, retireOutcome]

/-- The completion of a pending word that fails decode: its error is recorded and the command retired. -/
theorem complete_error {s : State} {e : CmdError} (hb : s.busy = true) (hd : decode s.cmdl = .err e) :
    complete s = .next (retire (raiseError e s)) := by
  simp [complete, hb, runWord, hd, retireOutcome]

/-- Everything a host access can do while a command is pending: outside the window it is not answered, inside it only
a 32-bit read of STATUS goes on, and the block does not change (70_reset_and_hazards.md R284). -/
theorem busAccess_busy {a : Access} {s t : State} (hb : s.busy = true) (h : busAccess a s = .next t) :
    t = { s with response := t.response } := by
  obtain ⟨-, rfl⟩ | ⟨_, _, _, _, _, _, rfl⟩ | ⟨off, n, v, -, -, h⟩ := busAccess_cases h
  · rfl
  · rfl
  · obtain ⟨-, hb', -⟩ := memWrite_cases h
    exact absurd (hb.symm.trans hb') (by decide)

end Sys2Proof.Laws
end

