-- ==== Sys2Proof/Laws/Invariant.lean ====
section
/-! SUPPORT. The block's invariant over the named updates of the state: each keeps it, under the guard its command
tests. -/

namespace Sys2Proof.Laws

open Sys2Proof.Machine

/-- The invariant speaks of the block's elements alone, not of BUSY, CMDL, ERR, the events or the last answer. -/
theorem Inv_congr {s t : State} (hi : s.Inv) (h1 : t.hash = s.hash) (h2 : t.mem = s.mem) (h3 : t.mlen = s.mlen)
    (h4 : t.phase = s.phase) (h5 : t.alg = s.alg) (h6 : t.hexv = s.hexv) : t.Inv where
  mem_wf := by rw [h2]; exact hi.mem_wf
  mem_inBuffers := by rw [h2]; exact hi.mem_inBuffers
  mlen_le := by rw [h3]; exact hi.mlen_le
  mlen_absorb := by rw [h3, h4]; exact hi.mlen_absorb
  unused_zero := by rw [State.unusedZero, h1, h5]; exact hi.unused_zero
  hexv_hex := by rw [State.hex, h1, h2, h5, h6]; exact hi.hexv_hex
  idle_clear := by rw [h1, h3, h4, h5, h6]; exact hi.idle_clear

theorem retire_inv {s : State} (hi : s.Inv) : (retire s).Inv := Inv_congr hi rfl rfl rfl rfl rfl rfl

theorem raiseError_inv {s : State} (hi : s.Inv) (e : CmdError) : (raiseError e s).Inv :=
  Inv_congr hi (by simp) (by simp) (by simp) (by simp) (by simp) (by simp)

theorem initWith_inv {s : State} (hi : s.Inv) (a : Alg) : (initWith a s).Inv where
  mem_wf := by rw [initWith_mem]; exact wf_writeHex _ hi.mem_wf
  mem_inBuffers := by rw [initWith_mem]; exact inBuffers_writeHex _ hi.mem_inBuffers (by simp)
  mlen_le := by simp
  mlen_absorb := by simp
  unused_zero := by rw [State.unusedZero, initWith_hash, initWith_alg]; cases a <;> decide
  hexv_hex := by simp
  idle_clear := by simp

/-- No compression writes an unused H word (10_state.md R22). -/
theorem compressBlock_unused (a : Alg) (h : HashRegs) (block : List Byte) :
    (compressBlock a h block).toList.drop (nw a) = h.toList.drop (nw a) := by
  cases a with
  | md5 => rw [compressBlock_md5, drop_md5, drop_md5]; simp only [md5Compress_h4, md5Compress_h5, md5Compress_h6, md5Compress_h7]
  | sha1 => rw [compressBlock_sha1, drop_sha1, drop_sha1]; simp only [sha1Compress_h5, sha1Compress_h6, sha1Compress_h7]
  | sha256 => rw [drop_sha256, drop_sha256]

theorem foldl_compressBlock_unused (a : Alg) (h : HashRegs) (blocks : List (List Byte)) :
    (blocks.foldl (compressBlock a) h).toList.drop (nw a) = h.toList.drop (nw a) := by
  induction blocks generalizing h with
  | nil => rfl
  | cons b blocks ih => rw [List.foldl_cons, ih, compressBlock_unused]

theorem absorbBlock_inv {s : State} (hi : s.Inv) (hp : s.phase = .absorb) (hl : s.mlen.toNat + 64 ≤ msgMax) :
    (absorbBlock s).Inv := by
  have hm : (absorbBlock s).mlen.toNat = s.mlen.toNat + 64 := by
    unfold msgMax at hl
    rw [absorbBlock_mlen, BitVec.toNat_add, show (64 : DWord).toNat = 64 from rfl, Nat.mod_eq_of_lt (by omega)]
  exact {
    mem_wf := by rw [absorbBlock_mem]; exact hi.mem_wf
    mem_inBuffers := by rw [absorbBlock_mem]; exact hi.mem_inBuffers
    mlen_le := by rw [hm]; exact hl
    mlen_absorb := by have := hi.mlen_absorb hp; intro _; rw [hm]; omega
    unused_zero := by
      rw [State.unusedZero, absorbBlock_hash, absorbBlock_alg, compressBlock_unused]; exact hi.unused_zero
    hexv_hex := by simp
    idle_clear := by simp [hp] }

theorem absorbTail_inv {s : State} (hi : s.Inv) (hp : s.phase = .absorb) {n : Nat} (hn : n ≤ 63) :
    (absorbTail n s).Inv := by
  have hm : (absorbTail n s).mlen.toNat ≤ msgMax := by
    have h1 := hi.mlen_le
    have h2 := hi.mlen_absorb hp
    rw [absorbTail_mlen, BitVec.toNat_ofNat]
    unfold msgMax at *
    omega
  exact {
    mem_wf := by rw [absorbTail_mem]; exact hi.mem_wf
    mem_inBuffers := by rw [absorbTail_mem]; exact hi.mem_inBuffers
    mlen_le := hm
    mlen_absorb := by simp
    unused_zero := by
      rw [State.unusedZero, absorbTail_hash, absorbTail_alg, foldl_compressBlock_unused]; exact hi.unused_zero
    hexv_hex := by simp
    idle_clear := by simp }

theorem writeDigest_inv {s : State} (hi : s.Inv) (hp : s.phase ≠ .idle) : (writeDigest s).Inv where
  mem_wf := by rw [writeDigest_mem]; exact wf_writeHex _ hi.mem_wf
  mem_inBuffers := by rw [writeDigest_mem]; exact inBuffers_writeHex _ hi.mem_inBuffers (by simp)
  mlen_le := by rw [writeDigest_mlen]; exact hi.mlen_le
  mlen_absorb := by rw [writeDigest_mlen, writeDigest_phase]; exact hi.mlen_absorb
  unused_zero := by rw [State.unusedZero, writeDigest_hash, writeDigest_alg]; exact hi.unused_zero
  hexv_hex := by
    intro _
    rw [State.hex, writeDigest_mem, writeDigest_alg, writeDigest_hash]
    exact hex_writeHex _ hi.mem_wf (by simp)
  idle_clear := by simp [hp]

end Sys2Proof.Laws
end

