-- ==== Sys2Proof/Laws/PerInstr.lean ====
section
/-! SUPPORT. The statements made per instruction: the family TableRow. -/

namespace Sys2Proof.Laws

/-- The encoding of a well-formed command matches the pattern of its row of the opcode table under the row's mask
(30_encoding.md R82). -/
def TableRow.Statement (i : Instr) : Prop :=
  i.wellFormed = true → encode i &&& (rowOf i).mask = (rowOf i).pattern

theorem TableRow.nop : TableRow.Statement .nop := fun _ => rfl

theorem TableRow.initMd5 : TableRow.Statement .initMd5 := fun _ => rfl

theorem TableRow.initSha1 : TableRow.Statement .initSha1 := fun _ => rfl

theorem TableRow.initSha256 : TableRow.Statement .initSha256 := fun _ => rfl

theorem TableRow.compress : TableRow.Statement .compress := fun _ => rfl

/-- The field N lies outside the row's mask, for every count the field holds. -/
theorem TableRow.final (n : Nat) : TableRow.Statement (.final n) := by
  intro h
  have hn : n ≤ 63 := by simpa [Instr.wellFormed] using h
  have all : ∀ k : Fin 64, encode (.final k.val) &&& (rowOf (.final k.val)).mask = (rowOf (.final k.val)).pattern := by
    decide
  exact all ⟨n, by omega⟩

theorem TableRow.hex : TableRow.Statement .hex := fun _ => rfl

end Sys2Proof.Laws
end

