-- ==== Sys2Proof/Laws/Words.lean ====
section
/-! SUPPORT. The byte orders and rotations as arithmetic: what the words assembled from bytes, and the bytes taken
from words, are as numbers. -/

namespace Sys2Proof.Laws

open Sys2Proof.Machine

/-- Putting `y` above the `n` bits of `x` adds it there. -/
theorem or_mul_two_pow {x n : Nat} (y : Nat) (h : x < 2 ^ n) : x ||| (y * 2 ^ n) = x + y * 2 ^ n := by
  rw [Nat.or_comm, ← Nat.shiftLeft_eq, ← Nat.shiftLeft_add_eq_or_of_lt h]; omega

theorem le32_toNat (a b c d : Byte) :
    (le32 a b c d).toNat = a.toNat + 2 ^ 8 * b.toNat + 2 ^ 16 * c.toNat + 2 ^ 24 * d.toNat := by
  have := a.isLt; have := b.isLt; have := c.isLt; have := d.isLt
  unfold le32
  simp only [BitVec.toNat_or, BitVec.toNat_shiftLeft, BitVec.toNat_setWidth, Nat.shiftLeft_eq]
  simp only [Nat.mod_eq_of_lt (show a.toNat < 2 ^ 32 by omega), Nat.mod_eq_of_lt (show b.toNat < 2 ^ 32 by omega),
    Nat.mod_eq_of_lt (show c.toNat < 2 ^ 32 by omega), Nat.mod_eq_of_lt (show d.toNat < 2 ^ 32 by omega)]
  rw [Nat.mod_eq_of_lt (by omega), Nat.mod_eq_of_lt (by omega), Nat.mod_eq_of_lt (by omega)]
  rw [or_mul_two_pow (n := 8) _ (by omega), or_mul_two_pow (n := 16) _ (by omega),
    or_mul_two_pow (n := 24) _ (by omega)]
  omega

theorem be32_toNat (a b c d : Byte) :
    (be32 a b c d).toNat = 2 ^ 24 * a.toNat + 2 ^ 16 * b.toNat + 2 ^ 8 * c.toNat + d.toNat := by
  have h : be32 a b c d = le32 d c b a := by
    unfold be32 le32
    rw [BitVec.or_comm, BitVec.or_comm (_ ||| _), BitVec.or_comm (a.setWidth 32 <<< 24), BitVec.or_assoc,
      BitVec.or_assoc]
  rw [h, le32_toNat]; omega

theorem leWords_length : ∀ (n : Nat) (l : List Byte), l.length = 4 * n → (leWords l).length = n
  | 0, l, h => by
    obtain rfl : l = [] := by simpa using h
    rfl
  | n + 1, _ :: _ :: _ :: _ :: r, h => by
    simp [leWords, leWords_length n r (by simp at h; omega)]

theorem beWords_length : ∀ (n : Nat) (l : List Byte), l.length = 4 * n → (beWords l).length = n
  | 0, l, h => by
    obtain rfl : l = [] := by simpa using h
    rfl
  | n + 1, _ :: _ :: _ :: _ :: r, h => by
    simp [beWords, beWords_length n r (by simp at h; omega)]

/-- Message word j, little-endian (42_md5.md R151). -/
theorem leWords_getD : ∀ (j : Nat) (l : List Byte), 4 * j + 3 < l.length → (leWords l).getD j 0 =
    le32 (l.getD (4 * j) 0) (l.getD (4 * j + 1) 0) (l.getD (4 * j + 2) 0) (l.getD (4 * j + 3) 0)
  | 0, _ :: _ :: _ :: _ :: _, _ => by simp [leWords]
  | j + 1, _ :: _ :: _ :: _ :: r, h => by
    have := leWords_getD j r (by simp at h; omega)
    simp only [leWords, List.getD_cons_succ, this]
    rfl

/-- Message word j, big-endian (43_sha1.md R181, 44_sha256.md R202). -/
theorem beWords_getD : ∀ (j : Nat) (l : List Byte), 4 * j + 3 < l.length → (beWords l).getD j 0 =
    be32 (l.getD (4 * j) 0) (l.getD (4 * j + 1) 0) (l.getD (4 * j + 2) 0) (l.getD (4 * j + 3) 0)
  | 0, _ :: _ :: _ :: _ :: _, _ => by simp [beWords]
  | j + 1, _ :: _ :: _ :: _ :: r, h => by
    have := beWords_getD j r (by simp at h; omega)
    simp only [beWords, List.getD_cons_succ, this]
    rfl

/-- `rotl` is the library's rotation (00_scope.md R7). -/
theorem rotl_eq_rotateLeft (x : Word) (n : Nat) (h : n < 32) : rotl x n = x.rotateLeft n := by
  unfold rotl; rw [BitVec.rotateLeft_def, Nat.mod_eq_of_lt h]

theorem rotr_eq_rotateRight (x : Word) (n : Nat) (h0 : 0 < n) (h : n < 32) : rotr x n = x.rotateRight n := by
  unfold rotr rotl
  rw [BitVec.rotateRight_def, Nat.mod_eq_of_lt h, Nat.mod_eq_of_lt (by omega), show 32 - (32 - n) = n by omega,
    BitVec.or_comm]

/-- The byte on lane i of a write datum (20_memory.md R54). -/
theorem lanes_getD_toNat : ∀ (n : Nat) (v : Word) (i : Nat), i < n →
    ((lanes n v).getD i 0).toNat = v.toNat / 2 ^ (8 * i) % 256
  | _ + 1, v, 0, _ => by simp [lanes, BitVec.extractLsb'_toNat]
  | n + 1, v, i + 1, h => by
    have := lanes_getD_toNat n (v >>> 8) i (by omega)
    simp only [lanes, List.getD_cons_succ, this]
    rw [BitVec.toNat_ushiftRight, Nat.shiftRight_eq_div_pow, Nat.div_div_eq_div_mul, ← pow_add]
    congr 3; ring

theorem assemble_nil_toNat : (assemble []).toNat = 0 := rfl

/-- The bytes of a read, lowest first, as a number (20_memory.md R57). -/
theorem assemble_cons_toNat (b : Byte) (l : List Byte) (h : l.length ≤ 3) :
    (assemble (b :: l)).toNat = b.toNat + 2 ^ 8 * (assemble l).toNat ∧ (assemble l).toNat < 2 ^ (8 * l.length) := by
  induction l generalizing b with
  | nil => exact ⟨by have := b.isLt; simp [assemble]; omega, by simp [assemble]⟩
  | cons c l ih =>
    obtain ⟨i1, i2⟩ := ih c (by simp at h; omega)
    have hb := b.isLt
    have hc := c.isLt
    have hl : (assemble (c :: l)).toNat < 2 ^ (8 * (c :: l).length) := by
      rw [i1, List.length_cons, mul_add, pow_add]; omega
    have hx : (assemble (c :: l)).toNat < 2 ^ 24 :=
      lt_of_lt_of_le hl (Nat.pow_le_pow_right (by omega) (by simp at h ⊢; omega))
    refine ⟨?_, hl⟩
    conv_lhs => unfold assemble
    simp only [BitVec.toNat_or, BitVec.toNat_setWidth, BitVec.toNat_shiftLeft, Nat.shiftLeft_eq]
    rw [Nat.mod_eq_of_lt (by omega), Nat.mod_eq_of_lt (by omega), or_mul_two_pow _ (by omega)]
    omega

end Sys2Proof.Laws
end

