-- ==== Sys2Proof/Tests/Slice0.lean ====
section
/-! SUPPORT. The model's own tests, their expected results taken from the spec's worked examples and vectors, and a
witness for the hypotheses of every statement that has some. -/

namespace Sys2Proof.Tests

open Sys2Proof.Machine

/-! ## Well-formed terms -/

theorem smoke_final_64_refused : (Instr.final 64).wellFormed = false := by decide

theorem smoke_final_63_accepted : (Instr.final 63).wellFormed = true := by decide

/-! ## Decoding: words written out from the patterns of 30_encoding.md R82, and T1 of 95_test_vectors.md -/

theorem test_decode_nop : decode 0b00000000000000000000000000000000 = .cmd .nop := by decide
theorem test_decode_initMd5 : decode 0b00000000000000000000000000000001 = .cmd .initMd5 := by decide
theorem test_decode_initSha1 : decode 0b00000000000000000000000000010001 = .cmd .initSha1 := by decide
theorem test_decode_initSha256 : decode 0b00000000000000000000000000100001 = .cmd .initSha256 := by decide
theorem test_decode_compress : decode 0b00000000000000000000000000000010 = .cmd .compress := by decide
theorem test_decode_final_37 : decode 0b00000000000000000010010100000011 = .cmd (.final 37) := by decide
theorem test_decode_hex : decode 0b00000000000000000000000000000100 = .cmd .hex := by decide
theorem test_decode_errors :
    decode 0x00000031 = .err .badAlg ∧ decode 0x00000005 = .err .illegalOp ∧ decode 0xFFFFFFF5 = .err .illegalOp ∧
    decode 0x00000040 = .err .reservedField ∧ decode 0x00004003 = .err .reservedField ∧
    decode 0x00003F01 = .err .reservedField ∧ decode 0x00008031 = .err .reservedField ∧
    decode 0xFFFFFFF0 = .err .reservedField := by decide
theorem test_decodeTableWord :
    decodeTableWord 32 0x00003703 = some (.final 55) ∧ decodeTableWord 32 0x00000031 = none := by decide
/-- T2. -/
theorem test_encode_final :
    encode (.final 1) = 0x00000103 ∧ encode (.final 55) = 0x00003703 ∧ encode (.final 56) = 0x00003803 := by decide

/-! ## Small states -/

/-- Whether an outcome is a next state of which `p` holds. -/
def nextWith (p : State → Bool) : Host.Outcome State Fault Refusal → Bool
  | .next t => p t
  | .fault _ => false
  | .refused _ => false

/-- Whether an outcome is the fault `f`. -/
def faultsWith (f : Fault) : Host.Outcome State Fault Refusal → Bool
  | .next _ => false
  | .fault g => decide (g = f)
  | .refused _ => false

/-- In ABSORB, right after the INIT of an algorithm (40_commands.md R103). -/
def absorbing (alg : Alg) : State := { State.reset with hash := iv alg, phase := .absorb, alg := alg }

/-- The same, with bytes written to BLK from its first byte up. -/
def absorbingBytes (alg : Alg) (bs : List Byte) : State :=
  { absorbing alg with mem := Memory.writeBytes [] 0x40 bs }

/-- In DONE with the MD5 hash state of "hello" (the example of 40_commands.md R108). -/
def helloDone : State :=
  { State.reset with hash := ⟨0x2a40415d, 0x762a4bbc, 0x919d71b9, 0x92c51710, 0, 0, 0, 0⟩, mlen := 5, phase := .done }

/-- A state whose next events are the given ones. -/
def waiting (es : List Input) : State := { State.reset with inputs := es }

/-! ## One step of each command -/

theorem test_nop_absorb : nextWith (fun t => statusWord t == 0x00000002 && t.hash == md5IV)
    (step ((absorbing .md5).withFetchWord 32 0x00000000)) = true := by decide +kernel

/-- The examples of R104 to R106. -/
theorem test_initMd5_reset :
    nextWith (fun t => statusWord t == 0x00000002 && t.mlen == 0 && t.hash ==
      ⟨0x67452301, 0xefcdab89, 0x98badcfe, 0x10325476, 0, 0, 0, 0⟩)
    (step (State.reset.withFetchWord 32 0x00000001)) = true := by decide +kernel

theorem test_initSha1_reset :
    nextWith (fun t => statusWord t == 0x00000012 && t.hash ==
      ⟨0x67452301, 0xefcdab89, 0x98badcfe, 0x10325476, 0xc3d2e1f0, 0, 0, 0⟩)
    (step (State.reset.withFetchWord 32 0x00000011)) = true := by decide +kernel

theorem test_initSha256_reset :
    nextWith (fun t => statusWord t == 0x00000022 && t.hash ==
      ⟨0x6a09e667, 0xbb67ae85, 0x3c6ef372, 0xa54ff53a, 0x510e527f, 0x9b05688c, 0x1f83d9ab, 0x5be0cd19⟩)
    (step (State.reset.withFetchWord 32 0x00000021)) = true := by decide +kernel

/-- The example of R107. -/
theorem test_compress_md5 :
    nextWith (fun t => t.mlen == 64 && t.hash == ⟨0x9144d9ca, 0xd901e4c9, 0x72fc5b38, 0x625ff51e, 0, 0, 0, 0⟩)
    (step ((absorbingBytes .md5 ((List.range 64).map (BitVec.ofNat 8))).withFetchWord 32 0x00000002)) = true := by
  decide +kernel

/-- COMPRESS before the first INIT raises SEQUENCE (R107, R282). -/
theorem test_compress_idle : nextWith (fun t => statusWord t == 0x00000400 && t.mlen == 0)
    (step (State.reset.withFetchWord 32 0x00000002)) = true := by decide +kernel

/-- The example of R108: "hello". -/
theorem test_final_md5 :
    nextWith (fun t => statusWord t == 0x00000004 && t.mlen == 5 &&
      t.hash == ⟨0x2a40415d, 0x762a4bbc, 0x919d71b9, 0x92c51710, 0, 0, 0, 0⟩)
    (step ((absorbingBytes .md5 [0x68, 0x65, 0x6c, 0x6c, 0x6f]).withFetchWord 32 0x00000503)) = true := by
  decide +kernel

/-- The empty message's SHA-256 state (44_sha256.md R208). -/
theorem test_final_sha256_empty :
    nextWith (fun t => t.hash == ⟨0xe3b0c442, 0x98fc1c14, 0x9afbf4c8, 0x996fb924, 0x27ae41e4, 0x649b934c,
      0xa495991b, 0x7852b855⟩)
    (step ((absorbing .sha256).withFetchWord 32 0x00000003)) = true := by decide +kernel

/-- The empty message's SHA-1 state (43_sha1.md R187). -/
theorem test_sha1_empty : sha1Compress sha1IV ((padTail .sha1 [] 0).headD []) =
    ⟨0xda39a3ee, 0x5e6b4b0d, 0x3255bfef, 0x95601890, 0xafd80709, 0, 0, 0⟩ := by decide +kernel

/-- The example of R109: "5d41402abc4b2a76b9719d911017c592". -/
theorem test_hex_hello :
    nextWith (fun t => statusWord t == 0x00001004 && t.hex ==
      [0x35, 0x64, 0x34, 0x31, 0x34, 0x30, 0x32, 0x61, 0x62, 0x63, 0x34, 0x62, 0x32, 0x61, 0x37, 0x36] ++
      [0x62, 0x39, 0x37, 0x31, 0x39, 0x64, 0x39, 0x31, 0x31, 0x30, 0x31, 0x37, 0x63, 0x35, 0x39, 0x32] ++
      List.replicate 32 0x00)
    (step (helloDone.withFetchWord 32 0x00000004)) = true := by decide +kernel

theorem test_hex_idle : nextWith (fun t => statusWord t == 0x00000400)
    (step (State.reset.withFetchWord 32 0x00000004)) = true := by decide +kernel

/-! ## The padder -/

/-- T24: a tail of 55 bytes fills one block. -/
theorem test_padTail_55 : (padTail .md5 (List.replicate 55 0x61) 55).map (·.drop 54) =
    [[0x61, 0x80, 0xb8, 0x01, 0x00, 0x00, 0x00, 0x00, 0x00, 0x00]] := by decide +kernel

/-- T25: one of 56 takes two. -/
theorem test_padTail_56 : padTail .sha1 (List.replicate 56 0x61) 56 =
    [List.replicate 56 0x61 ++ [0x80] ++ List.replicate 7 0x00,
     List.replicate 62 0x00 ++ [0x01, 0xc0]] := by decide +kernel

/-! ## The bus (T10 to T19) -/

/-- T10, T19a. -/
theorem test_write_word_lanes : nextWith (fun t => t.blk.take 5 == [0x61, 0x62, 0x63, 0x64, 0x00])
    (step (waiting [wr32 0x40 0x64636261])) = true := by decide +kernel

/-- T12. -/
theorem test_write_half_last : nextWith (fun t => t.blk.drop 62 == [0xEF, 0xBE])
    (step (waiting [wr16 0x7E 0xBEEF])) = true := by decide +kernel

/-- T11. -/
theorem test_read_word_lanes : nextWith (fun t => decide (t.response = .data .word 0xDDCCBBAA))
    (step { absorbingBytes .md5 [0, 0, 0, 0, 0xAA, 0xBB, 0xCC, 0xDD] with inputs := [rd32 0x44] }) = true := by
  decide +kernel

/-- T13, T14, T15. -/
theorem test_bus_errors :
    faultsWith .busError (step (waiting [rd32 0x41])) = true ∧
    faultsWith .busError (step (waiting [wr16 0x41 0])) = true ∧
    faultsWith .busError (step (waiting [rd16 0x04])) = true ∧
    faultsWith .busError (step (waiting [wr8 0x00 1])) = true := by decide +kernel

/-- T18. -/
theorem test_write_read_only_ignored : nextWith (fun t => decide (t = { waiting [] with response := .written }))
    (step (waiting [wr32 0x20 0x12345678])) = true := by decide +kernel

/-- T19. -/
theorem test_busy_hazard :
    faultsWith .hazardBusy (step { waiting [rd32 0x20] with busy := true, cmdl := 0x00000001 }) = true ∧
    nextWith (fun t => decide (t.response = .data .word 0x00000001))
      (step { waiting [rd32 0x04] with busy := true, cmdl := 0x00000001 }) = true := by decide +kernel

theorem test_outside_window : nextWith (fun t => decide (t = { waiting [] with response := .unselected }))
    (step (waiting [.access ⟨-1, .write .word 1⟩])) = true := by decide +kernel

/-! ## Witnesses: encoding and commands -/

theorem witness_DecodeEncodeAgree :
    (Instr.final 63).wellFormed = true ∧ decode 0x00003F03 = .cmd (.final 63) := by decide

theorem witness_NopChangesNothing :
    ((0x00000010 : Word) ≠ 0 ∧ (0x00000010 : Word).toNat % 16 = 0) ∧
    decode 0x00000000 = .cmd .nop ∧
    5 ≤ (0x00000005 : Word).toNat % 16 ∧ 5 ≤ (0xFFFFFFFF : Word).toNat % 16 := by decide

theorem witness_InitStartsMessage :
    (Instr.initSha1, (0x00000011 : Word), Alg.sha1,
      HashRegs.mk 0x67452301 0xefcdab89 0x98badcfe 0x10325476 0xc3d2e1f0 0 0 0) ∈
      [(Instr.initMd5, (0x00000001 : Word), Alg.md5,
          HashRegs.mk 0x67452301 0xefcdab89 0x98badcfe 0x10325476 0 0 0 0),
       (Instr.initSha1, (0x00000011 : Word), Alg.sha1,
          HashRegs.mk 0x67452301 0xefcdab89 0x98badcfe 0x10325476 0xc3d2e1f0 0 0 0),
       (Instr.initSha256, (0x00000021 : Word), Alg.sha256,
          HashRegs.mk 0x6a09e667 0xbb67ae85 0x3c6ef372 0xa54ff53a 0x510e527f 0x9b05688c 0x1f83d9ab 0x5be0cd19)] ∧
    (absorbingBytes .md5 [0x68]).mem.wf = true := by decide

/-- One state for each case of COMPRESS, the last two at the limit. -/
theorem witness_CompressAbsorbsBlock :
    ({ absorbing .md5 with err := some .length } : State).err ≠ none ∧
    (helloDone.err = none ∧ helloDone.phase ≠ .absorb) ∧
    (let s := { absorbing .md5 with mlen := 0x1FFFFFFFFFFFFFC0 }
     s.err = none ∧ s.phase = .absorb ∧ msgMax < s.mlen.toNat + 64) ∧
    (let s := { absorbing .md5 with mlen := 0x1FFFFFFFFFFFFF80 }
     s.err = none ∧ s.phase = .absorb ∧ s.mlen.toNat + 64 ≤ msgMax) := by decide

/-- The states of FINAL's cases are COMPRESS's; its counts at their bounds. -/
theorem witness_FinalAbsorbsPaddedTail :
    ((0 : Nat) ≤ 55 ∧ (55 : Nat) ≤ 55 ∧ (56 : Nat) ≤ 56 ∧ (56 : Nat) ≤ 63 ∧ (63 : Nat) ≤ 63) ∧
    ({ absorbing .sha1 with err := some .badAlg } : State).err ≠ none ∧
    (State.reset.err = none ∧ State.reset.phase ≠ .absorb) ∧
    (absorbing .sha256).err = none ∧ (absorbing .sha256).phase = .absorb := by decide

theorem witness_HexWritesDigest :
    ({ helloDone with err := some .sequence } : State).err ≠ none ∧
    (State.reset.err = none ∧ State.reset.phase = .idle) ∧
    helloDone.err = none ∧ helloDone.phase ≠ .idle ∧ helloDone.mem.wf = true ∧
    (absorbing .sha1).phase ≠ .idle := by decide

theorem witness_FinalIgnoresBytesBeyondTail :
    (5 : Nat) ≤ 63 ∧ ∀ k < 5, Memory.read (Memory.write (absorbingBytes .md5 [1, 2, 3, 4, 5]).mem 0x45 9) (0x40 + k) =
      Memory.read (absorbingBytes .md5 [1, 2, 3, 4, 5]).mem (0x40 + k) := by decide

theorem witness_HexTwiceWritesTheSame : ∃ s t : State, s.mem.wf = true ∧ exec .hex s = .next t :=
  ⟨helloDone, writeDigest helloDone, by decide, rfl⟩

/-- A state within the invariant in ABSORB, MLEN as large as it can be. -/
def fullLength : State := { absorbing .sha256 with mlen := 0x1FFFFFFFFFFFFFC0 }

theorem fullLength_inv : fullLength.Inv where
  mem_wf := by decide
  mem_inBuffers := by decide
  mlen_le := by decide
  mlen_absorb := by decide
  unused_zero := by decide
  hexv_hex := by decide
  idle_clear := by decide

theorem witness_FinalStaysWithinLimit :
    fullLength.Inv ∧ fullLength.phase = .absorb ∧ fullLength.err = none ∧ (63 : Nat) ≤ 63 :=
  ⟨fullLength_inv, rfl, rfl, by decide⟩

/-! ## Witnesses: errors -/

theorem witness_ErrorRecording :
    State.reset.err = none ∧ ({ State.reset with err := some .badAlg } : State).err ≠ none ∧
    (let s := { waiting [.complete] with busy := true, cmdl := 0x00000031 }
     s.inputs = .complete :: [] ∧ s.busy = true ∧ decode s.cmdl = .err .badAlg) ∧
    (let s := { waiting [] with busy := true, cmdl := 0x00000031 }
     s.inputs = [] ∧ s.busy = true ∧ decode s.cmdl = .err .badAlg) := by decide

theorem witness_ErrorLockUntilInit :
    ({ helloDone with err := some .sequence } : State).err ≠ none ∧
    ((0x00000004 : Word) ≠ 0x00000001 ∧ (0x00000004 : Word) ≠ 0x00000011 ∧ (0x00000004 : Word) ≠ 0x00000021) ∧
    ((0x00000021 : Word) = 0x00000001 ∨ (0x00000021 : Word) = 0x00000011 ∨ (0x00000021 : Word) = 0x00000021) := by
  decide

theorem witness_ErrorPriority : State.reset.err = none := rfl

theorem witness_ErrClearedOnlyByInitOrReset :
    ∃ (s t : State) (e : CmdError), step s = .next t ∧ s.err = some e ∧ t.err = none :=
  ⟨{ waiting [.reset] with err := some .badAlg }, waiting [], .badAlg, rfl, rfl, rfl⟩

/-! ## Witnesses: who writes what -/

theorem witness_HashWritersOnly : ∃ s t : State, step s = .next t ∧ (t.hash ≠ s.hash ∨ t.mlen ≠ s.mlen) :=
  ⟨{ helloDone with inputs := [.reset] }, waiting [], rfl, .inl (by decide)⟩

theorem witness_BufferWritersOnly :
    (∃ s t : State, ∃ k < 64, step s = .next t ∧
      Memory.read t.mem (0x40 + k) ≠ Memory.read s.mem (0x40 + k)) ∧
    (∃ s t : State, ∃ k < 64, step s = .next t ∧
      Memory.read t.mem (0x80 + k) ≠ Memory.read s.mem (0x80 + k)) := by
  refine ⟨⟨waiting [wr8 0x7F 0x61], { waiting [] with mem := [(0x7F, 0x61)], response := .written }, 63, by decide,
    rfl, by decide⟩, ⟨{ waiting [.reset] with mem := [(0xBF, 0x61)] }, waiting [], 63, by decide, rfl, by decide⟩⟩

theorem witness_StatusFieldWriters :
    (∃ s t : State, step s = .next t ∧ t.phase ≠ s.phase) ∧
    (∃ s t : State, step s = .next t ∧ t.alg ≠ s.alg) ∧
    (∃ s t : State, step s = .next t ∧ t.hexv ≠ s.hexv) ∧
    (∃ s t : State, step s = .next t ∧ t.busy ≠ s.busy) := by
  refine ⟨⟨{ helloDone with inputs := [.reset] }, waiting [], rfl, by decide⟩,
    ⟨{ absorbing .sha1 with inputs := [.reset] }, waiting [], rfl, by decide⟩,
    ⟨{ waiting [.reset] with hexv := true }, waiting [], rfl, by decide⟩,
    ⟨waiting [wr32 0x00 0x00000021], { waiting [] with cmdl := 0x00000021, busy := true, response := .written },
      rfl, by decide⟩⟩

/-! ## Witnesses: the engines -/

theorem witness_MessageWordByteOrder : (List.replicate 64 (0x61 : Byte)).length = 64 := by decide

theorem witness_Md5CompressFollowsRounds : (List.replicate 64 (0x00 : Byte)).length = 64 := by decide

theorem witness_Sha1CompressFollowsRounds : (List.replicate 64 (0x80 : Byte)).length = 64 := by decide

theorem witness_Sha256CompressFollowsRounds : (List.replicate 64 (0xFF : Byte)).length = 64 := by decide

theorem witness_LengthFieldByteOrder : (0x1FFFFFFFFFFFFFFF : Nat) ≤ 2 ^ 61 - 1 := by decide

theorem witness_LengthFieldSwapChangesPadding :
    ((1 : Nat) ≤ 1 ∧ (1 : Nat) < 2 ^ 29 + 2 ^ 21) ∧
    (1 : Nat) ≤ 538968063 ∧ (538968063 : Nat) < 2 ^ 29 + 2 ^ 21 := by decide

theorem witness_TailPadderBlocks :
    ([] : List Byte).length ≤ 55 ∧ (List.replicate 55 (0x61 : Byte)).length ≤ 55 ∧
    (56 ≤ (List.replicate 56 (0x61 : Byte)).length ∧ (List.replicate 56 (0x61 : Byte)).length ≤ 63) ∧
    (56 ≤ (List.replicate 63 (0x61 : Byte)).length ∧ (List.replicate 63 (0x61 : Byte)).length ≤ 63) := by decide

/-! ## Witnesses: the bus -/

/-- An access event at a window offset meets `State.accesses`. -/
theorem accesses_waiting (off : Nat) (op : BusOp) (es : List Input) (h : off ≤ 0xFF) :
    (waiting (.access ⟨off, op⟩ :: es)).accesses off op :=
  Laws.accesses_of_inputs (rest := es) rfl h

theorem witness_AddressDecode :
    windowOffset (relOfAddress (Config.hashBase + 0xFF)) = some 0xFF ∧
    (waiting [.access ⟨-1, .read .word⟩]).inputs = [.access ⟨-1, .read .word⟩] ∧ (-1 : Int) < 0 ∧
    (0xFF : Int) < 0x100 := by
  refine ⟨Laws.windowOffset_eq_some.mpr ⟨?_, by decide⟩, rfl, by decide, by decide⟩
  unfold relOfAddress; omega

theorem witness_IllegalAccessIsBusError :
    ((waiting [wr16 0x43 0]).accesses 0x43 (.write .half 0) ∧ ¬(0x43 % widthBytes .half = 0)) ∧
    ((waiting [rd8 0x3F]).accesses 0x3F (.read .byte) ∧
      ¬(widthBytes .byte = 4 ∨ (0x40 ≤ 0x3F ∧ 0x3F ≤ 0xBF))) ∧
    ((waiting [rd8 0xC0]).accesses 0xC0 (.read .byte) ∧
      ¬(widthBytes .byte = 4 ∨ (0x40 ≤ 0xC0 ∧ 0xC0 ≤ 0xBF))) :=
  ⟨⟨accesses_waiting _ _ _ (by decide), by decide⟩, ⟨accesses_waiting _ _ _ (by decide), by decide⟩,
    accesses_waiting _ _ _ (by decide), by decide⟩

theorem witness_BusyHazard :
    (let s := { waiting [rd8 0xBF] with busy := true }
     s.accesses 0xBF (.read .byte) ∧ s.busy = true ∧ 0xBF % widthBytes .byte = 0 ∧ (0x40 ≤ 0xBF ∧ 0xBF ≤ 0xBF) ∧
     ¬(0xBF = 0x04 ∧ BusOp.read .byte = .read .word)) ∧
    (let s := { waiting [wr32 0x04 0] with busy := true }
     s.accesses 0x04 (.write .word 0) ∧ s.busy = true ∧ 0x04 % widthBytes .word = 0 ∧ widthBytes .word = 4 ∧
     ¬(0x04 = 0x04 ∧ BusOp.write .word 0 = .read .word)) ∧
    (let s := { waiting [rd32 0x04] with busy := true }
     s.accesses 0x04 (.read .word) ∧ s.busy = true ∧ 0x04 % widthBytes .word = 0 ∧ widthBytes .word = 4) :=
  ⟨⟨⟨_, _, rfl, rfl, rfl⟩, rfl, by decide, by decide, by decide⟩,
    ⟨⟨_, _, rfl, rfl, rfl⟩, rfl, by decide, by decide, by decide⟩,
    ⟨_, _, rfl, rfl, rfl⟩, rfl, by decide, by decide⟩

/-- A legal read at the first and last place of each clause. -/
theorem witness_RegisterMapReads :
    (∀ off ∈ [0x00, 0x04, 0x08, 0x0C, 0x10, 0x1C, 0x20, 0x3C, 0x40, 0xBC, 0xC0, 0xFC],
      (waiting [rd32 off]).accesses off (.read .word) ∧ (waiting [rd32 off]).busy = false ∧
      off % widthBytes .word = 0 ∧ widthBytes .word = 4) ∧
    ((waiting [rd8 0xBF]).accesses 0xBF (.read .byte) ∧ (waiting [rd8 0xBF]).busy = false ∧
      0xBF % widthBytes .byte = 0 ∧ (0x40 ≤ 0xBF ∧ 0xBF ≤ 0xBF)) := by
  refine ⟨fun off h => ⟨accesses_waiting _ _ _ ?_, rfl, ?_, rfl⟩, accesses_waiting _ _ _ (by decide), rfl, by decide,
    by decide⟩
  · revert off; decide
  · revert off; decide

/-- A legal write at the first and last place of each clause. -/
theorem witness_HostWrites :
    (∀ off ∈ [0x00, 0x04, 0x3C, 0x40, 0x7C, 0x80, 0xFC],
      (waiting [wr32 off 1]).accesses off (.write .word 1) ∧ (waiting [wr32 off 1]).busy = false ∧
      off % widthBytes .word = 0 ∧ widthBytes .word = 4) ∧
    ((waiting [wr8 0x7F 1]).accesses 0x7F (.write .byte 1) ∧ (waiting [wr8 0x7F 1]).busy = false ∧
      0x7F % widthBytes .byte = 0 ∧ (0x40 ≤ 0x7F ∧ 0x7F ≤ 0xBF)) ∧
    (waiting []).mem.wf = true ∧ (waiting []).busy = false := by
  refine ⟨fun off h => ⟨accesses_waiting _ _ _ ?_, rfl, ?_, rfl⟩,
    ⟨accesses_waiting _ _ _ (by decide), rfl, by decide, by decide⟩, by decide, rfl⟩
  · revert off; decide
  · revert off; decide

theorem witness_MixedWidthReadBack :
    (let s := waiting ([wr32 (0x40 + 4 * 15) 0x11223344, rd8 (0x40 + 4 * 15 + 3)] ++ [])
     s.mem.wf = true ∧ s.busy = false ∧ (15 : Nat) < 16 ∧ (3 : Nat) < 4 ∧
     s.inputs = [wr32 (0x40 + 4 * 15) 0x11223344, rd8 (0x40 + 4 * 15 + 3)] ++ []) ∧
    (let es := [wr8 (0x40 + 4 * 15) 0xAA, wr8 (0x40 + 4 * 15 + 1) 0xBB, wr8 (0x40 + 4 * 15 + 2) 0xCC,
       wr8 (0x40 + 4 * 15 + 3) 0xDD, rd32 (0x40 + 4 * 15)] ++ []
     (waiting es).mem.wf = true ∧ (waiting es).busy = false ∧ (waiting es).inputs = es) :=
  ⟨⟨by decide, rfl, by decide, by decide, rfl⟩, by decide, rfl, rfl⟩

theorem witness_BusWordsToMessageWords :
    let s := waiting (wr32 (0x40 + 4 * 15) 0x64636261 :: [])
    s.mem.wf = true ∧ s.busy = false ∧ (15 : Nat) < 16 ∧ s.inputs = wr32 (0x40 + 4 * 15) 0x64636261 :: [] :=
  ⟨by decide, rfl, by decide, rfl⟩

/-! ## Witnesses: steps, reset and runs -/

theorem witness_StepRunsDecodedCommand :
    (let s := { waiting [.complete] with busy := true, cmdl := 0x00000001 }
     s.inputs = .complete :: [] ∧ s.busy = true ∧ decode s.cmdl = .cmd .initMd5 ∧
     exec .initMd5 { s with inputs := [] } = .next (initWith .md5 { s with inputs := [] })) ∧
    (let s := { waiting [] with busy := true, cmdl := 0x00000000 }
     s.inputs = [] ∧ s.busy = true ∧ decode s.cmdl = .cmd .nop ∧ exec .nop s = .next s) ∧
    ((waiting [.complete]).inputs = .complete :: [] ∧ (waiting [.complete]).busy = false) ∧
    ((waiting []).inputs = [] ∧ (waiting []).busy = false) ∧
    (waiting [.reset]).inputs = .reset :: [] ∧
    ((0x00000021 : Nat) < 2 ^ 32 ∧ decode (BitVec.ofNat 32 0x00000021) = .cmd .initSha256 ∧
     exec .initSha256 { State.reset with cmdl := BitVec.ofNat 32 0x00000021, busy := true } =
      .next (initWith .sha256 { State.reset with cmdl := BitVec.ofNat 32 0x00000021, busy := true })) :=
  ⟨⟨rfl, rfl, by decide, rfl⟩, ⟨rfl, rfl, by decide, rfl⟩, ⟨rfl, rfl⟩, ⟨rfl, rfl⟩, rfl, by decide, by decide, rfl⟩

theorem witness_ResetClearsEverything :
    ({ helloDone with inputs := [.reset, rd32 0x04], busy := true, cmdl := 2 } : State).inputs =
      .reset :: [rd32 0x04] := rfl

theorem witness_StepKeepsInvariant : ∃ s t : State, s.Inv ∧ step s = .next t ∧ t.busy = false ∧ s.busy = true :=
  ⟨{ fullLength with busy := true }, { fullLength with busy := false },
    Laws.Inv_congr fullLength_inv rfl rfl rfl rfl rfl rfl, rfl, rfl, rfl⟩

theorem witness_StepFaultsExactlyOnHostFaults :
    (waiting [rd8 0x04]).hostFault = some .busError ∧
    ({ waiting [wr32 0x00 1] with busy := true } : State).hostFault = some .hazardBusy := by decide

/-- A pending command with each of its three ends to come. -/
theorem witness_PendingCommandCompletes :
    ∀ es ∈ [[rd32 0x04, .complete], [rd32 0x04, .reset], [rd32 0x20]],
      ({ waiting es with busy := true, cmdl := 0x00000001 } : State).busy = true := fun _ _ => rfl

theorem witness_TimingDoesNotAffectResult :
    ∃ s t : State, s.busy = true ∧ s.inputs = .complete :: [] ∧ step s = .next t :=
  ⟨{ waiting [.complete] with busy := true }, waiting [], rfl, rfl, rfl⟩

theorem witness_DigestSequenceLaw :
    let m : List Byte := List.replicate 120 0x61
    let s := { helloDone with inputs := digestRun 2 .sha1 m ++ [rd32 0x04], err := some .sequence }
    s.mem.wf = true ∧ s.busy = false ∧ m.length ≤ 2 ^ 61 - 1 ∧
    s.inputs = digestRun 2 .sha1 m ++ [rd32 0x04] :=
  ⟨by decide, rfl, by decide, rfl⟩

theorem witness_CanonicalMemoriesEqual :
    Memory.wf (Memory.write [(0x41, 2)] 0x40 1) = true ∧ Memory.wf [(0x40, 1), (0x41, 2)] = true ∧
    Memory.write [(0x41, 2)] 0x40 1 = [(0x40, 1), (0x41, 2)] := by decide

end Sys2Proof.Tests
end

section
/-! The bus: what a legal host write with BUSY = 0 does (20_memory.md R54 to R56). -/

namespace Sys2Proof.Proofs

open Sys2Proof.Machine Sys2Proof.Laws

/-- A written datum stands little-endian in the storage. -/
theorem read_writeBytes_lanes_toNat {m : Memory} (hm : m.wf = true) (off n : Nat) (v : Word) {i : Nat} (hi : i < n) :
    (Memory.read (Memory.writeBytes m off (lanes n v)) (off + i)).toNat = v.toNat / 2 ^ (8 * i) % 256 := by
  have hlen : i < (lanes n v).length := by rwa [lanes_length]
  rw [read_writeBytes_inside hm off (lanes n v) i hlen, ← List.getD_eq_getElem _ 0 hlen, lanes_getD_toNat n v i hi]

/-- A written datum leaves the offsets beside it alone. -/
theorem read_writeBytes_lanes_outside (m : Memory) (off n : Nat) (v : Word) {k : Nat} (hk : k < off ∨ off + n ≤ k) :
    Memory.read (Memory.writeBytes m off (lanes n v)) k = Memory.read m k :=
  read_writeBytes_outside m off (lanes n v) k (by rwa [lanes_length])

/-- CMD takes 32-bit accesses only (20_memory.md R52). -/
theorem eq_word_of_legal_cmd {n : Width} (h : legal 0x00 n = true) : n = .word := by
  obtain ⟨-, hw | ⟨hlo, -⟩⟩ := (legal_iff 0x00 n).mp h
  · cases n with
    | byte => cases hw
    | half => cases hw
    | word => rfl
  · exact absurd hlo (by decide)

/-- Settles O41: one rule of `memWrite` per clause, and the byte laws of the storage for what a BLK write stores. -/
theorem hostWrites : Obligations.HostWrites := by
  intro s off n v hacc hbusy halign hwidth s'
  have hlegal : legal off n = true := (legal_iff off n).mpr ⟨halign, hwidth⟩
  have hstep : step s = memWrite off n v s' := step_write hacc
  have hidle : s'.busy = false := hbusy
  refine ⟨fun hcmd => ?_, fun hlo hhi => ⟨Memory.writeBytes s.mem off (lanes (widthBytes n) v), ?_, ?_, ?_⟩,
    fun hcmd hblk => ?_⟩
  · subst hcmd
    obtain rfl := eq_word_of_legal_cmd hlegal
    exact hstep.trans (memWrite_cmd v hidle)
  · exact hstep.trans (memWrite_blk v hlegal hidle hlo hhi)
  · exact fun hwf i hi => read_writeBytes_lanes_toNat hwf off _ v hi
  · exact fun k hk => read_writeBytes_lanes_outside s.mem off _ v hk
  · exact hstep.trans (memWrite_other v hlegal hidle hcmd hblk)

end Sys2Proof.Proofs
end

section
/-! The decoder: the fields and masks of a command word as numbers, and from them the order of the checks and the
opcode map (30_encoding.md R80 to R85). -/

namespace Sys2Proof.Proofs

/-! ## Fields and masks as numbers -/

@[simp] theorem opField_toNat (w : Word) : (opField w).toNat = w.toNat % 16 := by
  simp [opField, BitVec.extractLsb'_toNat]

@[simp] theorem algField_toNat (w : Word) : (algField w).toNat = w.toNat / 16 % 4 := by
  simp [algField, BitVec.extractLsb'_toNat, Nat.shiftRight_eq_div_pow]

@[simp] theorem nField_toNat (w : Word) : (nField w).toNat = w.toNat / 256 % 64 := by
  simp [nField, BitVec.extractLsb'_toNat, Nat.shiftRight_eq_div_pow]

/-- A mask of `k` ones from bit `s` up cuts out that field of a number, in its place. -/
theorem nat_and_fieldMask (x s k : Nat) : x &&& (2 ^ k - 1) <<< s = x / 2 ^ s % 2 ^ k * 2 ^ s := by
  have hfield : x &&& (2 ^ k - 1) <<< s = ((x >>> s) &&& (2 ^ k - 1)) <<< s := by
    apply Nat.eq_of_testBit_eq
    intro i
    by_cases hi : s ≤ i <;> simp [hi, Bool.and_comm]
  rw [hfield, Nat.and_two_pow_sub_one_eq_mod, Nat.shiftRight_eq_div_pow, Nat.shiftLeft_eq]

/-- Under two masks with no common bit a word is the sum of what each of them cuts out. -/
theorem and_or_toNat_of_disjoint (w a b : Word) (h : a &&& b = 0) :
    (w &&& (a ||| b)).toNat = (w &&& a).toNat + (w &&& b).toNat := by
  have hdisj : (w &&& a) &&& (w &&& b) = 0 := by
    calc (w &&& a) &&& (w &&& b) = w &&& (a &&& b) := by ac_rfl
      _ = 0 := by rw [h]; exact BitVec.and_zero
  rw [BitVec.and_or_distrib_left, ← BitVec.add_eq_or_of_and_eq_zero _ _ hdisj,
    BitVec.toNat_add_of_and_eq_zero hdisj]

/-- Bits 31:14 of a word, which no command uses. -/
theorem and_highMask_toNat (w : Word) : (w &&& 0xFFFFC000).toNat = w.toNat / 16384 * 16384 := by
  have hw : w.toNat / 16384 % 262144 = w.toNat / 16384 := Nat.mod_eq_of_lt (by omega)
  simpa [hw] using nat_and_fieldMask w.toNat 14 18

/-- The always-reserved bits are 0 exactly when bits 7:6 and bits 31:14 are (30_encoding.md R80). -/
theorem and_reservedMask_eq_zero_iff (w : Word) :
    w &&& reservedMask = 0 ↔ w.toNat / 64 % 4 = 0 ∧ w.toNat / 16384 = 0 := by
  have hlow : (w &&& 0x000000C0).toNat = w.toNat / 64 % 4 * 64 := nat_and_fieldMask w.toNat 6 2
  have hsum := and_or_toNat_of_disjoint w 0x000000C0 0xFFFFC000 (by decide)
  rw [hlow, and_highMask_toNat] at hsum
  have hmask : reservedMask = 0x000000C0 ||| 0xFFFFC000 := by decide
  have hzero : (0 : Word).toNat = 0 := rfl
  rw [← BitVec.toNat_inj, hmask, hsum, hzero]
  omega

/-- The row of FINAL fixes every bit but those of N (30_encoding.md R82). -/
theorem and_finalMask_eq_three_iff (w : Word) :
    w &&& 0xFFFFC0FF = 0x00000003 ↔ w.toNat % 256 = 3 ∧ w.toNat / 16384 = 0 := by
  have hlow : (w &&& 0x000000FF).toNat = w.toNat % 256 := Nat.and_two_pow_sub_one_eq_mod w.toNat 8
  have hsum := and_or_toNat_of_disjoint w 0x000000FF 0xFFFFC000 (by decide)
  rw [hlow, and_highMask_toNat] at hsum
  have hmask : (0xFFFFC0FF : Word) = 0x000000FF ||| 0xFFFFC000 := by decide
  have hthree : (0x00000003 : Word).toNat = 3 := rfl
  rw [← BitVec.toNat_inj, hmask, hsum, hthree]
  omega

/-! ## The order of the checks -/

/-- The command of each OP value, ALG choosing among the INITs (30_encoding.md R82). -/
theorem commandOf_eq (op : BitVec 4) (alg : BitVec 2) (n : BitVec 6) :
    commandOf op alg n =
      if op.toNat = 0 then .nop
      else if op.toNat = 1 then
        (if alg.toNat = 0 then .initMd5 else if alg.toNat = 1 then .initSha1 else .initSha256)
      else if op.toNat = 2 then .compress
      else if op.toNat = 3 then .final n.toNat
      else .hex := by
  unfold commandOf
  match op.toNat, alg.toNat with
  | 0, _ => rfl
  | 1, 0 => rfl
  | 1, 1 => rfl
  | 1, _ + 2 => rfl
  | 2, _ => rfl
  | 3, _ => rfl
  | _ + 4, _ => rfl

/-- Settles O3: each check of `decode` said on the word as a number, the reserved mask by what it cuts out. -/
theorem decoderChecksInOrder : Obligations.DecoderChecksInOrder := by
  intro w
  have hmask : w &&& reservedMask ≠ 0 ↔ w.toNat / 64 % 4 ≠ 0 ∨ w.toNat / 16384 ≠ 0 := by
    rw [Ne, and_reservedMask_eq_zero_iff]
    omega
  simp only [decode, commandOf_eq, hmask]
  simp only [← BitVec.toNat_inj, opField_toNat, algField_toNat, nField_toNat, BitVec.reduceToNat, ne_eq]

/-! ## The opcode map -/

theorem encode_final_toNat {n : Nat} (hn : n ≤ 63) : (encode (.final n)).toNat = n * 256 + 3 := by
  have hn32 : n % 2 ^ 32 = n := Nat.mod_eq_of_lt (by omega)
  have hshift : (BitVec.ofNat 32 n <<< 8).toNat = n <<< 8 := by
    rw [BitVec.toNat_shiftLeft, BitVec.toNat_ofNat, hn32, Nat.mod_eq_of_lt (by rw [Nat.shiftLeft_eq]; omega)]
  calc (encode (.final n)).toNat = 3 ||| n <<< 8 := by
        rw [encode, BitVec.toNat_or, hshift]
        rfl
    _ = n * 256 + 3 := by
        rw [Nat.or_comm, ← Nat.shiftLeft_add_eq_or_of_lt (by decide), Nat.shiftLeft_eq]

/-- The words of FINAL decode to it with the N they hold (30_encoding.md R82). -/
theorem decode_eq_final {w : Word} (hlow : w.toNat % 256 = 3) (hhigh : w.toNat / 16384 = 0) :
    decode w = .cmd (.final (w.toNat / 256 % 64)) := by
  have hop : w.toNat % 16 = 3 := by omega
  have halg : w.toNat / 16 % 4 = 0 := by omega
  have hres : w.toNat / 64 % 4 = 0 := by omega
  rw [decoderChecksInOrder w, hop, halg, hres, hhigh]
  rfl

/-- A word that decodes to a command is that command's encoding: the checks leave it no other bits, one OP value
after the other (30_encoding.md R83). -/
theorem wellFormed_and_eq_encode_of_decode {w : Word} {i : Instr} (h : decode w = .cmd i) :
    i.wellFormed = true ∧ w = encode i := by
  rw [← BitVec.toNat_inj]
  rw [decoderChecksInOrder w] at h
  split_ifs at h <;> cases h
  · exact ⟨rfl, show w.toNat = 0x00000000 by omega⟩
  · exact ⟨rfl, show w.toNat = 0x00000001 by omega⟩
  · exact ⟨rfl, show w.toNat = 0x00000011 by omega⟩
  · exact ⟨rfl, show w.toNat = 0x00000021 by omega⟩
  · exact ⟨rfl, show w.toNat = 0x00000002 by omega⟩
  · have hn : w.toNat / 256 % 64 ≤ 63 := by omega
    rw [encode_final_toNat hn]
    exact ⟨decide_eq_true hn, by omega⟩
  · exact ⟨rfl, show w.toNat = 0x00000004 by omega⟩

/-- A row whose mask is all ones holds one word: its command's encoding. -/
theorem and_allOnes_eq_iff_decode {i : Instr} (hi : decode (encode i) = .cmd i) (w : Word) :
    w &&& 0xFFFFFFFF = encode i ↔ decode w = .cmd i := by
  have hw : w &&& 0xFFFFFFFF = w := BitVec.and_allOnes
  rw [hw]
  constructor
  · rintro rfl
    exact hi
  · exact fun h => (wellFormed_and_eq_encode_of_decode h).2

/-- The row of FINAL holds the words that decode to it, for some N. -/
theorem and_finalMask_eq_iff_decode (w : Word) :
    w &&& 0xFFFFC0FF = 0x00000003 ↔ ∃ n, decode w = .cmd (.final n) := by
  rw [and_finalMask_eq_three_iff]
  constructor
  · rintro ⟨hlow, hhigh⟩
    exact ⟨_, decode_eq_final hlow hhigh⟩
  · rintro ⟨n, h⟩
    obtain ⟨hwf, rfl⟩ := wellFormed_and_eq_encode_of_decode h
    have hn : n ≤ 63 := of_decide_eq_true hwf
    rw [encode_final_toNat hn]
    omega

theorem decode_illegalOp {w : Word} (hop : 5 ≤ w.toNat % 16) : decode w = .err .illegalOp := by
  rw [decoderChecksInOrder w, if_pos hop]

/-- Settles O4: the rows of one word by `and_allOnes_eq_iff_decode`, FINAL's by its mask, and the two errors. -/
theorem opcodeMapRows : Obligations.OpcodeMapRows := by
  intro w
  refine ⟨?nop, ?initMd5, ?initSha1, ?initSha256, ?compress, ?final, ?hex, ?illegalOp, ?badAlg⟩
  case nop => exact and_allOnes_eq_iff_decode (i := .nop) (by decide) w
  case initMd5 => exact and_allOnes_eq_iff_decode (i := .initMd5) (by decide) w
  case initSha1 => exact and_allOnes_eq_iff_decode (i := .initSha1) (by decide) w
  case initSha256 => exact and_allOnes_eq_iff_decode (i := .initSha256) (by decide) w
  case compress => exact and_allOnes_eq_iff_decode (i := .compress) (by decide) w
  case final => exact and_finalMask_eq_iff_decode w
  case hex => exact and_allOnes_eq_iff_decode (i := .hex) (by decide) w
  case illegalOp => exact decode_illegalOp
  case badAlg =>
    rintro rfl
    decide

end Sys2Proof.Proofs
end

section
/-! The tail padder's blocks (41_padder.md R131, R134). -/

namespace Sys2Proof.Proofs

open Sys2Proof.Machine Sys2Proof.Laws

/-- Up to 55 bytes, the zeros fill the block they stand in. -/
theorem zeroCount_of_le_55 {n : Nat} (hn : n ≤ 55) : zeroCount n = 55 - n := by
  unfold zeroCount
  omega

/-- From 56 bytes on, the zeros fill their block and 56 bytes of the next. -/
theorem zeroCount_of_ge_56 {n : Nat} (hlo : 56 ≤ n) (hhi : n ≤ 63) : zeroCount n = (63 - n) + 56 := by
  unfold zeroCount
  omega

theorem padTail_of_le_55 (alg : Alg) {t : List Byte} (len : Nat) (ht : t.length ≤ 55) :
    padTail alg t len = [t ++ [0x80] ++ List.replicate (55 - t.length) 0 ++ lenField alg len] := by
  have hsize : (t ++ [0x80] ++ List.replicate (55 - t.length) 0 ++ lenField alg len).length = 64 := by
    simp only [List.length_append, List.length_singleton, List.length_replicate, lenField_length]
    omega
  rw [padTail, if_pos ht, padTailBytes, zeroCount_of_le_55 ht, List.take_of_length_le hsize.le]

theorem padTail_of_ge_56 (alg : Alg) {t : List Byte} (len : Nat) (hlo : 56 ≤ t.length) (hhi : t.length ≤ 63) :
    padTail alg t len =
      [t ++ [0x80] ++ List.replicate (63 - t.length) 0, List.replicate 56 0 ++ lenField alg len] := by
  have hfirst : (t ++ [0x80] ++ List.replicate (63 - t.length) 0).length = 64 := by
    simp only [List.length_append, List.length_singleton, List.length_replicate]
    omega
  have hsecond : (List.replicate 56 0 ++ lenField alg len).length = 64 := by
    simp only [List.length_append, List.length_replicate, lenField_length]
  have hbytes : padTailBytes alg t len =
      (t ++ [0x80] ++ List.replicate (63 - t.length) 0) ++ (List.replicate 56 0 ++ lenField alg len) := by
    simp only [padTailBytes, zeroCount_of_ge_56 hlo hhi, ← List.replicate_append_replicate, List.append_assoc]
  rw [padTail, if_neg (by omega), hbytes, List.take_left' hfirst, List.drop_left' hfirst,
    List.take_of_length_le hsecond.le]

end Sys2Proof.Proofs
end

section
/-! The commands: what each does in every state, as one equation per command, and from them their results and
frames (40_commands.md R102 to R109). -/

namespace Sys2Proof.Proofs

open Sys2Proof.Machine Sys2Proof.Laws

/-! ## One equation per command -/

/-- The first error is the one recorded (60_exceptions.md R252). -/
theorem raiseError_of_err_none {s : State} (e : CmdError) (he : s.err = none) :
    raiseError e s = { s with err := some e } := by
  simp only [raiseError, he]

theorem exec_init {i : Instr} {a : Alg} (hi : initAlg i = some a) (s : State) :
    exec i s = .next (initWith a s) := by
  cases i <;> cases hi <;> rfl

theorem exec_compress_eq (s : State) : exec .compress s = .next (
    if s.err = none then
      if s.phase = .absorb then
        if msgMax < s.mlen.toNat + 64 then raiseError .length s else absorbBlock s
      else raiseError .sequence s
    else s) := by
  rw [exec, execCompress]
  cases s.err with
  | some e => rfl
  | none =>
    cases s.phase with
    | idle => rfl
    | done => rfl
    | absorb => by_cases hl : msgMax < s.mlen.toNat + 64 <;> simp [passesLimit, hl]

theorem exec_final_eq (n : Nat) (s : State) : exec (.final n) s = .next (
    if s.err = none then
      if s.phase = .absorb then absorbTail n s else raiseError .sequence s
    else s) := by
  rw [exec, execFinal]
  cases s.err with
  | some e => rfl
  | none => cases s.phase <;> rfl

theorem exec_hex_eq (s : State) : exec .hex s = .next (
    if s.err = none then
      if s.phase = .idle then raiseError .sequence s else writeDigest s
    else s) := by
  rw [exec, execHex]
  cases s.err with
  | some e => rfl
  | none => cases s.phase <;> rfl

/-! ## What INIT and HEX write -/

theorem read_writeHex_inside {bs : List Byte} {m : Memory} (hm : m.wf = true) {k : Nat} (hk : k < bs.length) :
    Memory.read (writeHex bs m) (0x80 + k) = bs[k] :=
  read_writeBytes_inside hm hexBase bs k hk

/-- INIT, said for all three algorithms at once (40_commands.md R103). -/
theorem exec_init_effect {i : Instr} {a : Alg} (hi : initAlg i = some a) {s : State} (hwf : s.mem.wf = true) :
    ∃ m : Memory,
      exec i s = .next { s with
        hash := iv a, mem := m, mlen := 0, phase := .absorb, alg := a, err := none, hexv := false } ∧
      (∀ k < 64, Memory.read m (0x80 + k) = 0) ∧
      (∀ k, k < 0x80 ∨ 0xC0 ≤ k → Memory.read m k = Memory.read s.mem k) := by
  have hlen : (List.replicate 64 (0x00 : Byte)).length = 64 := List.length_replicate
  refine ⟨_, exec_init hi s, ?_, fun k hk => read_writeHex_outside _ s.mem k hlen hk⟩
  intro k hk
  rw [read_writeHex_inside hwf (by rwa [hlen]), List.getElem_replicate]

/-- Settles O6: each INIT is `exec_init_effect` of its algorithm, whose IV is the one listed. -/
theorem initStartsMessage : Obligations.InitStartsMessage := by
  intro i word a h hrow
  simp only [List.mem_cons, List.not_mem_nil, or_false, Prod.mk.injEq] at hrow
  have hfacts : decode word = .cmd i ∧ iv a = h ∧ initAlg i = some a := by
    obtain ⟨rfl, rfl, rfl, rfl⟩ | ⟨rfl, rfl, rfl, rfl⟩ | ⟨rfl, rfl, rfl, rfl⟩ := hrow
    · exact ⟨by decide, rfl, rfl⟩
    · exact ⟨by decide, rfl, rfl⟩
    · exact ⟨by decide, rfl, rfl⟩
  obtain ⟨hword, rfl, hi⟩ := hfacts
  exact ⟨hword, rfl, fun s hwf => exec_init_effect hi hwf⟩

/-- Settles O9: the cases of `exec_hex_eq`, and the two sides of a write of all 64 bytes of HEX. -/
theorem hexWritesDigest : Obligations.HexWritesDigest := by
  refine ⟨by decide, fun s => ⟨?locked, ?sequence, ?digest⟩⟩
  case locked =>
    intro he
    rw [exec_hex_eq, if_neg he]
  case sequence =>
    intro he hp
    rw [exec_hex_eq, if_pos he, if_pos hp, raiseError_of_err_none _ he]
  case digest =>
    intro he hp hwf
    have hlen := hexBuffer_length s.alg s.hash
    refine ⟨writeHex (hexBuffer s.alg s.hash) s.mem, ?_, hex_writeHex _ hwf hlen,
      fun k hk => read_writeHex_outside _ s.mem k hlen hk⟩
    rw [exec_hex_eq, if_pos he, if_neg hp, writeDigest]

/-! ## What COMPRESS and FINAL absorb -/

theorem blockOperand_eq_map (s : State) :
    blockOperand s = (List.range 64).map fun k => Memory.read s.mem (0x40 + k) :=
  readBytes_eq_map s.mem 0x40 64

theorem tailOperand_eq_map {n : Nat} (hn : n ≤ 64) (s : State) :
    tailOperand n s = (List.range n).map fun k => Memory.read s.mem (0x40 + k) := by
  rw [tailOperand, State.blk, readBytes_take _ _ _ _ hn]
  exact readBytes_eq_map s.mem 0x40 n

/-- Settles O7: the cases of `exec_compress_eq`, the block read as the 64 bytes of BLK. -/
theorem compressAbsorbsBlock : Obligations.CompressAbsorbsBlock := by
  refine ⟨by decide, rfl, fun h block => ⟨rfl, rfl, rfl⟩, fun s => ⟨?locked, ?sequence, ?length, ?absorb⟩⟩
  case locked =>
    intro he
    rw [exec_compress_eq, if_neg he]
  case sequence =>
    intro he hp
    rw [exec_compress_eq, if_pos he, if_neg hp, raiseError_of_err_none _ he]
  case length =>
    intro he hp hl
    rw [exec_compress_eq, if_pos he, if_pos hp, if_pos hl, raiseError_of_err_none _ he]
  case absorb =>
    intro he hp hl
    rw [exec_compress_eq, if_pos he, if_pos hp, if_neg (Nat.not_lt.mpr hl), absorbBlock, blockOperand_eq_map]

theorem decode_encode_final {n : Nat} (hn : n ≤ 63) : decode (encode (.final n)) = .cmd (.final n) := by
  have hw := encode_final_toNat hn
  have hfield : (encode (.final n)).toNat / 256 % 64 = n := by omega
  rw [decode_eq_final (by omega) (by omega), hfield]

/-- MLEN counts the tail modulo 2^64, however it is added. -/
theorem ofNat_toNat_add (mlen : DWord) (n : Nat) : BitVec.ofNat 64 (mlen.toNat + n) = mlen + BitVec.ofNat 64 n := by
  rw [BitVec.ofNat_add, BitVec.ofNat_toNat, BitVec.setWidth_eq]

/-- Settles O8: the cases of `exec_final_eq`, the tail padded to one block or to two (`padTail_of_le_55`,
`padTail_of_ge_56`). -/
theorem finalAbsorbsPaddedTail : Obligations.FinalAbsorbsPaddedTail := by
  refine ⟨fun n hn => decode_encode_final hn, fun s n hn => ?_⟩
  intro tail len
  have htail : tailOperand n s = tail := tailOperand_eq_map (by omega) s
  have hsize : tail.length = n := by rw [← htail, tailOperand_length n s (by omega)]
  refine ⟨?locked, ?sequence, ?oneBlock, ?twoBlocks⟩
  case locked =>
    intro he
    rw [exec_final_eq, if_neg he]
  case sequence =>
    intro he hp
    rw [exec_final_eq, if_pos he, if_neg hp, raiseError_of_err_none _ he]
  case oneBlock =>
    intro he hp hle
    rw [exec_final_eq, if_pos he, if_pos hp, absorbTail, htail, ofNat_toNat_add,
      padTail_of_le_55 _ _ (by omega), hsize, List.foldl_cons, List.foldl_nil]
  case twoBlocks =>
    intro he hp hge
    rw [exec_final_eq, if_pos he, if_pos hp, absorbTail, htail, ofNat_toNat_add,
      padTail_of_ge_56 _ _ (by omega) (by omega), hsize, List.foldl_cons, List.foldl_cons, List.foldl_nil]

/-! ## NOP -/

/-- With OP 0, any other bit set is a reserved one (30_encoding.md R83). -/
theorem decode_reservedField_of_op_zero {w : Word} (hw : w ≠ 0) (hop : w.toNat % 16 = 0) :
    decode w = .err .reservedField := by
  have hne : w.toNat ≠ 0 := fun h => hw (BitVec.eq_of_toNat_eq h)
  rw [decoderChecksInOrder w]
  split_ifs with hillegal hreserved halg hn
  · omega
  · rfl
  · rfl
  · rfl
  all_goals omega

/-- Settles O5: a NOP word is NOP's encoding, and the two errors are the decoder's. -/
theorem nopChangesNothing : Obligations.NopChangesNothing :=
  ⟨fun _ => rfl, by decide, fun _ h => (wellFormed_and_eq_encode_of_decode h).2,
    fun _ hw hop => decode_reservedField_of_op_zero hw hop, fun _ hop => decode_illegalOp hop⟩

end Sys2Proof.Proofs
end

section
/-! The message words of a block (42_md5.md R151, 43_sha1.md R181, 44_sha256.md R202). -/

namespace Sys2Proof.Proofs

open Sys2Proof.Machine Sys2Proof.Laws

/-- Settles O21: each word is the four bytes at its place, put together in the algorithm's order. -/
theorem messageWordByteOrder : Obligations.MessageWordByteOrder := by
  intro block hlen
  refine ⟨leWords_length 16 block hlen, beWords_length 16 block hlen, fun j hj => ?_⟩
  have hbytes : 4 * j + 3 < block.length := by omega
  constructor
  case left => rw [leWords_getD j block hbytes]; exact le32_toNat ..
  case right => rw [beWords_getD j block hbytes]; exact be32_toNat ..

end Sys2Proof.Proofs
end

section
/-! Command errors: the error lock, and who clears ERR (60_exceptions.md R252, R255, R256). -/

namespace Sys2Proof.Proofs

open Sys2Proof.Machine Sys2Proof.Laws

/-! ## What runs under the error lock -/

/-- A recorded error is never overwritten (60_exceptions.md R252). -/
theorem raiseError_of_err_ne_none {s : State} (e : CmdError) (he : s.err ≠ none) : raiseError e s = s := by
  obtain ⟨e₀, he₀⟩ := Option.ne_none_iff_exists'.mp he
  simp only [raiseError, he₀]

/-- While ERR is not 0 no command but an INIT has an effect (60_exceptions.md R256). -/
theorem exec_of_err_ne_none {i : Instr} {s : State} (he : s.err ≠ none) (hi : initAlg i = none) :
    exec i s = .next s := by
  cases i with
  | nop => rfl
  | initMd5 => cases hi
  | initSha1 => cases hi
  | initSha256 => cases hi
  | compress => rw [exec_compress_eq, if_neg he]
  | final n => rw [exec_final_eq, if_neg he]
  | hex => rw [exec_hex_eq, if_neg he]

theorem runWord_of_decode_cmd {w : Word} {i : Instr} (hd : decode w = .cmd i) (s : State) :
    runWord w s = exec i s := by
  simp only [runWord, hd]

theorem runWord_of_decode_err {w : Word} {e : CmdError} (hd : decode w = .err e) (s : State) :
    runWord w s = .next (raiseError e s) := by
  simp only [runWord, hd]

/-- Under the lock a word does nothing, whether it decodes to a command or fails decode. -/
theorem runWord_of_err_ne_none {w : Word} {s : State} (he : s.err ≠ none)
    (hw : ∀ i, decode w = .cmd i → initAlg i = none) : runWord w s = .next s := by
  cases hd : decode w with
  | cmd i => rw [runWord_of_decode_cmd hd, exec_of_err_ne_none he (hw i hd)]
  | err e => rw [runWord_of_decode_err hd, raiseError_of_err_ne_none e he]

/-- The three INIT words are the only ones that decode to an INIT (30_encoding.md R82). -/
theorem eq_initWord_of_decode {w : Word} {i : Instr} {a : Alg} (hd : decode w = .cmd i) (hi : initAlg i = some a) :
    w = initWord a := by
  obtain ⟨-, rfl⟩ := wellFormed_and_eq_encode_of_decode hd
  cases i <;> cases hi <;> rfl

theorem runWord_initWord (a : Alg) (s : State) : runWord (initWord a) s = .next (initWith a s) := by
  cases a with
  | md5 => exact runWord_of_decode_cmd (i := .initMd5) (by decide) s
  | sha1 => exact runWord_of_decode_cmd (i := .initSha1) (by decide) s
  | sha256 => exact runWord_of_decode_cmd (i := .initSha256) (by decide) s

/-- Settles O15: a word that is no INIT word does not decode to an INIT, so the lock holds it; an INIT runs in every
state. -/
theorem errorLockUntilInit : Obligations.ErrorLockUntilInit := by
  refine fun w s he => ⟨fun hMd5 hSha1 hSha256 => ?locked, ?init⟩
  case locked =>
    refine runWord_of_err_ne_none he fun i hd => Option.eq_none_iff_forall_ne_some.mpr fun a hi => ?_
    have hw := eq_initWord_of_decode hd hi
    cases a with
    | md5 => exact hMd5 hw
    | sha1 => exact hSha1 hw
    | sha256 => exact hSha256 hw
  case init =>
    rintro (rfl | rfl | rfl)
    · exact ⟨_, runWord_initWord .md5 s, rfl, rfl⟩
    · exact ⟨_, runWord_initWord .sha1 s, rfl, rfl⟩
    · exact ⟨_, runWord_initWord .sha256 s, rfl, rfl⟩

/-! ## What each kind of step does to ERR -/

/-- A host access changes at most the byte storage, CMDL with BUSY, and the last answer on the bus (20_memory.md R54
to R57). -/
theorem busAccess_frame {a : Access} {s t : State} (h : busAccess a s = .next t) :
    t = { s with mem := t.mem, busy := t.busy, cmdl := t.cmdl, response := t.response } := by
  obtain ⟨-, rfl⟩ | ⟨_, _, _, -, -, -, rfl⟩ | ⟨_, _, _, -, -, hwrite⟩ := busAccess_cases h
  · rfl
  · rfl
  · obtain ⟨-, -, ⟨-, rfl⟩ | ⟨-, rfl⟩ | ⟨-, -, rfl⟩⟩ := memWrite_cases hwrite
    · rfl
    · rfl
    · rfl

/-- An INIT whose completion is the next event is one of the three commands the claims name. -/
theorem completes_init {s : State} {i : Instr} {a : Alg} (hi : initAlg i = some a) (h : s.completes i) :
    s.completes .initMd5 ∨ s.completes .initSha1 ∨ s.completes .initSha256 := by
  cases i with
  | initMd5 => exact .inl h
  | initSha1 => exact .inr (.inl h)
  | initSha256 => exact .inr (.inr h)
  | nop => cases hi
  | compress => cases hi
  | final n => cases hi
  | hex => cases hi

/-- A completion keeps a recorded error, unless the command is an INIT, which clears it (60_exceptions.md R255). -/
theorem complete_keeps_err_or_inits {s t : State} {e : CmdError} (h : complete s = .next t) (he : s.err = some e) :
    t.err = some e ∨
    (t.err = none ∧ s.busy = true ∧ ∃ i a, decode s.cmdl = .cmd i ∧ initAlg i = some a) := by
  have hlock : s.err ≠ none := Option.ne_none_iff_exists'.mpr ⟨e, he⟩
  obtain ⟨-, rfl⟩ | ⟨-, e', -, rfl⟩ | ⟨hb, i, u, hd, hu, rfl⟩ := complete_cases h
  · exact .inl he
  · rw [raiseError_of_err_ne_none e' hlock]
    exact .inl he
  · cases hi : initAlg i with
    | none =>
      cases (exec_of_err_ne_none hlock hi).symm.trans hu
      exact .inl he
    | some a =>
      cases (exec_init hi s).symm.trans hu
      exact .inr ⟨rfl, hb, i, a, hd, hi⟩

/-- A step that completes, `rest` being the events it leaves: `complete_keeps_err_or_inits`, said of the state
before the step. -/
theorem completion_keeps_err_or_inits {s t : State} {rest : List Input} {e : CmdError}
    (hnext : s.inputs = [] ∨ ∃ later, s.inputs = .complete :: later)
    (h : complete { s with inputs := rest } = .next t) (he : s.err = some e) :
    t.err = some e ∨
    (t.err = none ∧ (s.completes .initMd5 ∨ s.completes .initSha1 ∨ s.completes .initSha256)) := by
  obtain hkept | ⟨hclear, hb, i, a, hd, hi⟩ := complete_keeps_err_or_inits h he
  · exact .inl hkept
  · exact .inr ⟨hclear, completes_init hi ⟨hnext, hb, hd⟩⟩

/-- Settles O17: only a completion of an INIT (`completion_keeps_err_or_inits`) and a reset clear ERR; an
access keeps it (`busAccess_frame`). -/
theorem errClearedOnlyByInitOrReset : Obligations.ErrClearedOnlyByInitOrReset := by
  intro s t e h he
  obtain ⟨hin, hc⟩ | ⟨rest, hin, hc⟩ | ⟨a, rest, -, hacc⟩ | ⟨rest, hin, rfl⟩ := step_cases h
  · exact (completion_keeps_err_or_inits (.inl hin) hc he).imp_right (And.imp_right .inr)
  · exact (completion_keeps_err_or_inits (.inr ⟨rest, hin⟩) hc he).imp_right (And.imp_right .inr)
  · exact .inl ((congrArg State.err (busAccess_frame hacc)).trans he)
  · exact .inr ⟨rfl, .inl ⟨rest, hin⟩⟩

end Sys2Proof.Proofs
end

section
/-! The encoder against the decoder, and the worked words of the spec (30_encoding.md R80 to R91). -/

namespace Sys2Proof.Proofs

/-- Settles O2: one direction by the command's fields, the other by the decoder's checks, which leave a word no bit
that its command's encoding does not have (`wellFormed_and_eq_encode_of_decode`). -/
theorem decodeEncodeAgree : Obligations.DecodeEncodeAgree := by
  refine ⟨fun i hwf => ?encoded, fun w i h => ?decoded⟩
  case encoded =>
    cases i with
    | final n => exact decode_encode_final (of_decide_eq_true hwf)
    | nop => decide
    | initMd5 => decide
    | initSha1 => decide
    | initSha256 => decide
    | compress => decide
    | hex => decide
  case decoded =>
    obtain ⟨hwf, hw⟩ := wellFormed_and_eq_encode_of_decode h
    exact ⟨hwf, hw.symm⟩

/-- Settles O1: closed words, by evaluation. -/
theorem workedEncodings : Obligations.WorkedEncodings := by
  unfold Obligations.WorkedEncodings
  decide

end Sys2Proof.Proofs
end

section
/-! What one step does to the state, by its cause, and that every step keeps the invariant (10_state.md R22, R32,
R33). -/

namespace Sys2Proof.Proofs

open Sys2Proof.Machine Sys2Proof.Laws

/-- The state with its next event taken. -/
def afterEvent (s : State) : State := { s with inputs := s.inputs.tail }

@[simp] theorem afterEvent_hash (s : State) : (afterEvent s).hash = s.hash := rfl
@[simp] theorem afterEvent_mem (s : State) : (afterEvent s).mem = s.mem := rfl
@[simp] theorem afterEvent_mlen (s : State) : (afterEvent s).mlen = s.mlen := rfl
@[simp] theorem afterEvent_busy (s : State) : (afterEvent s).busy = s.busy := rfl
@[simp] theorem afterEvent_phase (s : State) : (afterEvent s).phase = s.phase := rfl
@[simp] theorem afterEvent_alg (s : State) : (afterEvent s).alg = s.alg := rfl
@[simp] theorem afterEvent_err (s : State) : (afterEvent s).err = s.err := rfl
@[simp] theorem afterEvent_hexv (s : State) : (afterEvent s).hexv = s.hexv := rfl
@[simp] theorem afterEvent_cmdl (s : State) : (afterEvent s).cmdl = s.cmdl := rfl
@[simp] theorem afterEvent_inputs (s : State) : (afterEvent s).inputs = s.inputs.tail := rfl
@[simp] theorem afterEvent_response (s : State) : (afterEvent s).response = s.response := rfl

/-- The next step is a completion: its event is next, or no event is left (70_reset_and_hazards.md R289; log 4). -/
def completionNext (s : State) : Prop := s.inputs = [] ∨ ∃ rest, s.inputs = .complete :: rest

/-- What a step can make of a state, one constructor per cause: the reset, the effects of the commands, and what the
host's accesses do. -/
inductive StepEffect (s : State) : State → Prop where
  | reset (h : s.resets) : StepEffect s (resetBlock (afterEvent s))
  | init {i : Instr} {a : Alg} (h : s.completes i) (hi : initAlg i = some a) :
      StepEffect s (retire (initWith a (afterEvent s)))
  | compress (h : s.completes .compress) (hp : s.phase = .absorb) (hl : s.mlen.toNat + 64 ≤ msgMax) :
      StepEffect s (retire (absorbBlock (afterEvent s)))
  | final {n : Nat} (h : s.completes (.final n)) (hp : s.phase = .absorb) :
      StepEffect s (retire (absorbTail n (afterEvent s)))
  | hex (h : s.completes .hex) (hp : s.phase ≠ .idle) : StepEffect s (retire (writeDigest (afterEvent s)))
  | error (h : completionNext s) (e : CmdError) : StepEffect s (retire (raiseError e (afterEvent s)))
  | noEffect (h : completionNext s) : StepEffect s (retire (afterEvent s))
  | wait (h : s.busy = false) : StepEffect s (afterEvent s)
  | issue {v : Word} (h : s.accesses 0x00 (.write .word v)) :
      StepEffect s (latchCommand v { afterEvent s with response := .written })
  | store {off : Nat} {n : Width} {v : Word} (h : s.accesses off (.write n v)) (hb : s.busy = false)
      (hl : legal off n = true) (hlo : 0x40 ≤ off) (hhi : off ≤ 0x7F) :
      StepEffect s { afterEvent s with
        response := .written, mem := Memory.writeBytes s.mem off (lanes (widthBytes n) v) }
  | answer (r : Response) : StepEffect s { afterEvent s with response := r }

theorem stepEffect_of_exec {s u : State} {i : Instr} (hc : s.completes i) (h : exec i (afterEvent s) = .next u) :
    StepEffect s (retire u) := by
  obtain ⟨rfl, -⟩ | ⟨a, hi, rfl⟩ | ⟨-, -, e, rfl⟩ | ⟨rfl, -, hp, hl, rfl⟩ | ⟨n, rfl, -, hp, rfl⟩ | ⟨rfl, -, hp, rfl⟩ :=
    exec_cases h
  · exact .noEffect hc.1
  · exact .init hc hi
  · exact .error hc.1 e
  · exact .compress hc hp hl
  · exact .final hc hp
  · exact .hex hc hp

theorem stepEffect_of_complete {s t : State} (hc : completionNext s) (h : complete (afterEvent s) = .next t) :
    StepEffect s t := by
  obtain ⟨hb, rfl⟩ | ⟨-, e, -, rfl⟩ | ⟨hb, i, u, hd, hx, rfl⟩ := complete_cases h
  · exact .wait hb
  · exact .error hc e
  · exact stepEffect_of_exec ⟨hc, hb, hd⟩ hx

theorem stepEffect_of_write {s t : State} {off : Nat} {n : Width} {v : Word} (ha : s.accesses off (.write n v))
    (h : memWrite off n v { afterEvent s with response := .written } = .next t) : StepEffect s t := by
  obtain ⟨hl, hb, ⟨rfl, rfl⟩ | ⟨⟨hlo, hhi⟩, rfl⟩ | ⟨-, -, rfl⟩⟩ := memWrite_cases h
  · obtain rfl := eq_word_of_legal_cmd hl
    exact .issue ha
  · exact .store ha hb hl hlo hhi
  · exact .answer _

/-- Every step has one of the effects listed. -/
theorem stepEffect_of_step {s t : State} (h : step s = .next t) : StepEffect s t := by
  obtain ⟨hin, hc⟩ | ⟨rest, hin, hc⟩ | ⟨a, rest, hin, hacc⟩ | ⟨rest, hin, rfl⟩ := step_cases h
  · refine stepEffect_of_complete (.inl hin) ?_
    rwa [afterEvent, hin, List.tail_nil, ← hin]
  · refine stepEffect_of_complete (.inr ⟨rest, hin⟩) ?_
    rwa [afterEvent, hin]
  · have hafter : { s with inputs := rest } = afterEvent s := by rw [afterEvent, hin, List.tail_cons]
    rw [hafter] at hacc
    obtain ⟨-, rfl⟩ | ⟨_, _, _, -, -, -, rfl⟩ | ⟨off, n, v, hoff, hop, hw⟩ := busAccess_cases hacc
    · exact .answer _
    · exact .answer _
    · exact stepEffect_of_write ⟨a, rest, hin, hoff, hop⟩ hw
  · have hafter : { s with inputs := rest } = afterEvent s := by rw [afterEvent, hin, List.tail_cons]
    rw [hafter]
    exact .reset ⟨rest, hin⟩

/-! ## The invariant -/

/-- Settles O46: every clause is a value of the reset state. -/
theorem resetMeetsInvariant : Obligations.ResetMeetsInvariant where
  mem_wf := rfl
  mem_inBuffers := rfl
  mlen_le := Nat.zero_le _
  mlen_absorb := fun h => nomatch h
  unused_zero := by decide
  hexv_hex := fun h => nomatch h
  idle_clear := fun _ => ⟨rfl, rfl, rfl, rfl⟩

theorem afterEvent_inv {s : State} (hi : s.Inv) : (afterEvent s).Inv := Inv_congr hi rfl rfl rfl rfl rfl rfl

/-- Bytes written inside BLK do not touch HEX, and leave the storage canonical. -/
theorem storeBlk_inv {s : State} (hi : s.Inv) {off : Nat} {bs : List Byte} (hlo : 0x40 ≤ off)
    (hhi : off + bs.length ≤ 0x80) : ({ s with mem := Memory.writeBytes s.mem off bs } : State).Inv where
  mem_wf := wf_writeBytes hi.mem_wf off bs
  mem_inBuffers := inBuffers_writeBytes hi.mem_inBuffers off bs hlo (by omega)
  mlen_le := hi.mlen_le
  mlen_absorb := hi.mlen_absorb
  unused_zero := hi.unused_zero
  hexv_hex := fun hv =>
    (readBytes_writeBytes_outside s.mem off bs hexBase 64 (.inr hhi)).trans (hi.hexv_hex hv)
  idle_clear := hi.idle_clear

/-- The count of a FINAL that completes is in 0..63: its word decoded to it (30_encoding.md R81). -/
theorem final_le_of_completes {s : State} {n : Nat} (h : s.completes (.final n)) : n ≤ 63 := by
  obtain ⟨-, -, hd⟩ := h
  exact of_decide_eq_true (wellFormed_and_eq_encode_of_decode hd).1

/-- Settles O47: the invariant is kept by each effect a step can have (`stepEffect_of_step`), a command's by the law
of its meaning under the guard it tests. -/
theorem stepKeepsInvariant : Obligations.StepKeepsInvariant := by
  intro s t hi h
  have hi' := afterEvent_inv hi
  cases stepEffect_of_step h with
  | reset => exact Inv_congr resetMeetsInvariant rfl rfl rfl rfl rfl rfl
  | init => exact retire_inv (initWith_inv hi' _)
  | compress _ hp hl => exact retire_inv (absorbBlock_inv hi' hp hl)
  | final hc hp => exact retire_inv (absorbTail_inv hi' hp (final_le_of_completes hc))
  | hex _ hp => exact retire_inv (writeDigest_inv hi' hp)
  | error _ e => exact retire_inv (raiseError_inv hi' e)
  | noEffect => exact retire_inv hi'
  | wait => exact hi'
  | issue => exact Inv_congr hi' rfl rfl rfl rfl rfl rfl
  | @store off n v _ _ hl hlo hhi =>
    have hfit : off + (lanes (widthBytes n) v).length ≤ 0x80 := by
      rw [lanes_length]
      exact legal_blk hl hlo hhi
    exact Inv_congr (storeBlk_inv hi hlo hfit) rfl rfl rfl rfl rfl rfl
  | answer => exact Inv_congr hi' rfl rfl rfl rfl rfl rfl

end Sys2Proof.Proofs
end

section
/-! Who writes each element of the block, over every step: read off the list of effects a step can have (10_state.md
R20 to R35). -/

namespace Sys2Proof.Proofs

open Sys2Proof.Machine Sys2Proof.Laws

/-- Settles O18: the effects that touch H or MLEN are reset's and those of INIT, COMPRESS and FINAL. -/
theorem hashWritersOnly : Obligations.HashWritersOnly := by
  intro s t h hne
  cases stepEffect_of_step h
  case reset hr => exact .inl hr
  case init hc hi =>
    obtain h | h | h := completes_init hi hc
    · exact .inr (.inl h)
    · exact .inr (.inr (.inl h))
    · exact .inr (.inr (.inr (.inl h)))
  case compress hc _ _ => exact .inr (.inr (.inr (.inr (.inl hc))))
  case final hc _ => exact .inr (.inr (.inr (.inr (.inr ⟨_, hc⟩))))
  all_goals simp at hne

/-! ## The byte storage -/

/-- What a step can do to the byte storage: keep it, clear it by reset, write all of HEX by INIT or HEX, or store a
host write to BLK. -/
theorem mem_of_stepEffect {s t : State} (h : StepEffect s t) :
    t.mem = s.mem ∨ s.resets ∨
    ((s.completes .initMd5 ∨ s.completes .initSha1 ∨ s.completes .initSha256 ∨ s.completes .hex) ∧
      ∃ bs : List Byte, bs.length = 64 ∧ t.mem = writeHex bs s.mem) ∨
    ∃ off n v, s.accesses off (.write n v) ∧ s.busy = false ∧ legal off n = true ∧ 0x40 ≤ off ∧ off ≤ 0x7F ∧
      t.mem = Memory.writeBytes s.mem off (lanes (widthBytes n) v) := by
  cases h
  case reset hr => exact .inr (.inl hr)
  case init hc hi =>
    refine .inr (.inr (.inl ⟨?_, List.replicate 64 0x00, List.length_replicate, by simp⟩))
    obtain h | h | h := completes_init hi hc
    · exact .inl h
    · exact .inr (.inl h)
    · exact .inr (.inr (.inl h))
  case hex hc _ => exact .inr (.inr (.inl ⟨.inr (.inr (.inr hc)), hexBuffer s.alg s.hash, by simp, by simp⟩))
  case store ha hb hl hlo hhi => exact .inr (.inr (.inr ⟨_, _, _, ha, hb, hl, hlo, hhi, rfl⟩))
  all_goals exact .inl (by simp)

/-- Settles O19: a write of HEX leaves BLK alone, and a host write to BLK ends before HEX. -/
theorem bufferWritersOnly : Obligations.BufferWritersOnly := by
  intro s t h
  obtain hm | hr | ⟨hc, bs, hbs, hm⟩ | ⟨off, n, v, ha, hb, hl, hlo, hhi, hm⟩ :=
    mem_of_stepEffect (stepEffect_of_step h)
  · rw [hm]
    exact ⟨fun k _ hne => absurd rfl hne, fun k _ hne => absurd rfl hne⟩
  · exact ⟨fun _ _ _ => .inl hr, fun _ _ _ => .inl hr⟩
  · refine ⟨fun k hk hne => absurd ?_ hne, fun _ _ _ => .inr hc⟩
    rw [hm, read_writeHex_outside bs s.mem _ hbs (by omega)]
  · refine ⟨fun _ _ _ => .inr ⟨hb, off, n, v, hlo, hhi, ha⟩, fun k hk hne => absurd ?_ hne⟩
    have hend := legal_blk hl hlo hhi
    rw [hm, read_writeBytes_lanes_outside _ _ _ _ (by omega)]

/-! ## The fields of STATUS -/

theorem phase_writers {s t : State} (h : StepEffect s t) (hne : t.phase ≠ s.phase) :
    (s.resets ∧ t.phase = .idle) ∨
    ((s.completes .initMd5 ∨ s.completes .initSha1 ∨ s.completes .initSha256) ∧ t.phase = .absorb) ∨
    ((∃ n, s.completes (.final n)) ∧ s.phase = .absorb ∧ t.phase = .done) := by
  cases h
  case reset hr => exact .inl ⟨hr, rfl⟩
  case init hc hi => exact .inr (.inl ⟨completes_init hi hc, rfl⟩)
  case final hc hp => exact .inr (.inr ⟨⟨_, hc⟩, hp, rfl⟩)
  all_goals simp at hne

theorem alg_writers {s t : State} (h : StepEffect s t) (hne : t.alg ≠ s.alg) :
    (s.resets ∧ t.alg = .md5) ∨ (s.completes .initMd5 ∧ t.alg = .md5) ∨
    (s.completes .initSha1 ∧ t.alg = .sha1) ∨ (s.completes .initSha256 ∧ t.alg = .sha256) := by
  cases h
  case reset hr => exact .inl ⟨hr, rfl⟩
  case init i a hc hi =>
    cases i with
    | initMd5 => cases hi; exact .inr (.inl ⟨hc, rfl⟩)
    | initSha1 => cases hi; exact .inr (.inr (.inl ⟨hc, rfl⟩))
    | initSha256 => cases hi; exact .inr (.inr (.inr ⟨hc, rfl⟩))
    | nop => cases hi
    | compress => cases hi
    | final n => cases hi
    | hex => cases hi
  all_goals simp at hne

theorem hexv_writers {s t : State} (h : StepEffect s t) (hne : t.hexv ≠ s.hexv) :
    (t.hexv = true ∧ s.completes .hex) ∨
    (t.hexv = false ∧ (s.resets ∨ (s.completes .initMd5 ∨ s.completes .initSha1 ∨ s.completes .initSha256) ∨
      s.completes .compress ∨ ∃ n, s.completes (.final n))) := by
  cases h
  case reset hr => exact .inr ⟨rfl, .inl hr⟩
  case init hc hi => exact .inr ⟨rfl, .inr (.inl (completes_init hi hc))⟩
  case compress hc _ _ => exact .inr ⟨rfl, .inr (.inr (.inl hc))⟩
  case final hc _ => exact .inr ⟨rfl, .inr (.inr (.inr ⟨_, hc⟩))⟩
  case hex hc _ => exact .inl ⟨rfl, hc⟩
  all_goals simp at hne

theorem busy_writers {s t : State} (h : StepEffect s t) (hne : t.busy ≠ s.busy) :
    (t.busy = true ∧ ∃ v, s.accesses 0x00 (.write .word v) ∧ t.cmdl = v) ∨
    (t.busy = false ∧ (s.resets ∨ completionNext s)) := by
  cases h
  case reset hr => exact .inr ⟨rfl, .inl hr⟩
  case init hc _ => exact .inr ⟨rfl, .inr hc.1⟩
  case compress hc _ _ => exact .inr ⟨rfl, .inr hc.1⟩
  case final hc _ => exact .inr ⟨rfl, .inr hc.1⟩
  case hex hc _ => exact .inr ⟨rfl, .inr hc.1⟩
  case error hc _ => exact .inr ⟨rfl, .inr hc⟩
  case noEffect hc => exact .inr ⟨rfl, .inr hc⟩
  case issue v ha => exact .inl ⟨rfl, v, ha, rfl⟩
  all_goals simp at hne

/-- Settles O20: the writers of each field, from the list of effects. -/
theorem statusFieldWriters : Obligations.StatusFieldWriters := fun _ _ h =>
  have he := stepEffect_of_step h
  ⟨phase_writers he, alg_writers he, hexv_writers he, busy_writers he⟩

end Sys2Proof.Proofs
end

section
/-! Canonical byte storages that read alike are the same list (10_state.md R36; log 6). -/

namespace Sys2Proof.Proofs

open Sys2Proof.Machine Sys2Proof.Laws

theorem wfFrom_cons {lo k : Nat} {b : Byte} {m : Memory} :
    Memory.wfFrom lo ((k, b) :: m) = true ↔ lo ≤ k ∧ b ≠ 0 ∧ Memory.wfFrom (k + 1) m = true := by
  simp only [Memory.wfFrom, Bool.and_eq_true, decide_eq_true_eq, and_assoc]
  rfl

@[simp] theorem read_cons_same (k : Nat) (b : Byte) (m : Memory) : Memory.read ((k, b) :: m) k = b := by
  simp [Memory.read]

theorem read_cons_other {k a : Nat} (b : Byte) (m : Memory) (h : k ≠ a) :
    Memory.read ((k, b) :: m) a = Memory.read m a := by
  simp [Memory.read, h]

/-- The first listed offset of a canonical storage is one that every storage reading alike lists, so it is not below
that storage's first. -/
theorem head_ge_of_read_eq {k : Nat} {b : Byte} {m m' : Memory} {lo : Nat} (hb : b ≠ 0)
    (hm' : Memory.wfFrom lo m' = true) (h : ∀ a, Memory.read ((k, b) :: m) a = Memory.read m' a) : lo ≤ k := by
  by_contra hlt
  have hk := h k
  rw [read_cons_same, read_below hm' (by omega)] at hk
  exact hb hk

/-- From the head on, storages of the same head that read alike have tails that read alike. -/
theorem read_tail_eq {k : Nat} {b : Byte} {m m' : Memory} (hm : Memory.wfFrom (k + 1) m = true)
    (hm' : Memory.wfFrom (k + 1) m' = true)
    (h : ∀ a, Memory.read ((k, b) :: m) a = Memory.read ((k, b) :: m') a) (a : Nat) :
    Memory.read m a = Memory.read m' a := by
  by_cases ha : k = a
  · rw [read_below hm (by omega), read_below hm' (by omega)]
  · rw [← read_cons_other b m ha, h a, read_cons_other b m' ha]

theorem eq_of_wfFrom_of_read_eq {lo lo' : Nat} {m m' : Memory} (hm : Memory.wfFrom lo m = true)
    (hm' : Memory.wfFrom lo' m' = true) (h : ∀ a, Memory.read m a = Memory.read m' a) : m = m' := by
  induction m generalizing m' lo lo' with
  | nil =>
    cases m' with
    | nil => rfl
    | cons c m' =>
      obtain ⟨k, b⟩ := c
      exact absurd ((h k).trans (read_cons_same k b m')).symm (wfFrom_cons.mp hm').2.1
  | cons c m ih =>
    obtain ⟨k, b⟩ := c
    obtain ⟨-, hb, hw⟩ := wfFrom_cons.mp hm
    cases m' with
    | nil => exact absurd ((read_cons_same k b m).symm.trans (h k)) hb
    | cons c' m' =>
      obtain ⟨k', b'⟩ := c'
      obtain ⟨-, hb', hw'⟩ := wfFrom_cons.mp hm'
      have hle : k' ≤ k := head_ge_of_read_eq hb (wfFrom_cons.mpr ⟨le_rfl, hb', hw'⟩) h
      have hge : k ≤ k' := head_ge_of_read_eq hb' (wfFrom_cons.mpr ⟨le_rfl, hb, hw⟩) fun a => (h a).symm
      obtain rfl : k = k' := by omega
      obtain rfl : b = b' := by simpa using h k
      rw [ih hw hw' (read_tail_eq hw hw' h)]

/-- Settles O52: the lists agree head by head (`eq_of_wfFrom_of_read_eq`). -/
theorem canonicalMemoriesEqual : Obligations.CanonicalMemoriesEqual := fun _ _ hm hm' h =>
  eq_of_wfFrom_of_read_eq hm hm' h

end Sys2Proof.Proofs
end

section
/-! The commands: that each answers, what FINAL and HEX depend on, and the error a word leaves (40_commands.md R107 to
R109, 60_exceptions.md R250 to R253). -/

namespace Sys2Proof.Proofs

open Sys2Proof.Machine Sys2Proof.Laws

/-- Settles O10: each command has an equation whose right side is a next state. -/
theorem commandsNeverStop : Obligations.CommandsNeverStop := by
  intro i s
  cases i with
  | nop => exact ⟨_, rfl⟩
  | initMd5 => exact ⟨_, exec_init rfl s⟩
  | initSha1 => exact ⟨_, exec_init rfl s⟩
  | initSha256 => exact ⟨_, exec_init rfl s⟩
  | compress => exact ⟨_, exec_compress_eq s⟩
  | final n => exact ⟨_, exec_final_eq n s⟩
  | hex => exact ⟨_, exec_hex_eq s⟩

/-! ## FINAL -/

/-- The byte storage reaches a FINAL only through its tail operand. -/
theorem absorbTail_setMem {n : Nat} {s : State} {m : Memory}
    (h : tailOperand n { s with mem := m } = tailOperand n s) :
    absorbTail n { s with mem := m } = { absorbTail n s with mem := m } := by
  simp only [absorbTail, h]

theorem raiseError_setMem (e : CmdError) (s : State) (m : Memory) :
    raiseError e { s with mem := m } = { raiseError e s with mem := m } := by
  unfold raiseError
  cases h : s.err <;> simp only [h]

/-- Settles O11: the tail operand is the first n bytes of BLK, and the other cases of FINAL read no byte. -/
theorem finalIgnoresBytesBeyondTail : Obligations.FinalIgnoresBytesBeyondTail := by
  intro s m n hn hsame
  have htail : tailOperand n { s with mem := m } = tailOperand n s := by
    rw [tailOperand_eq_map (by omega), tailOperand_eq_map (by omega)]
    exact List.map_congr_left fun k hk => hsame k (List.mem_range.mp hk)
  refine ⟨_, exec_final_eq n s, ?_⟩
  rw [exec_final_eq]
  by_cases he : s.err = none
  · by_cases hp : s.phase = .absorb
    · rw [if_pos he, if_pos hp, if_pos he, if_pos hp, absorbTail_setMem htail]
    · rw [if_pos he, if_neg hp, if_pos he, if_neg hp, raiseError_setMem]
  · rw [if_neg he, if_neg he]

/-- In ABSORB MLEN is a multiple of 64 and MSG_MAX is 63 more than one, so a tail of up to 63 bytes fits (41_padder.md
R137). -/
theorem mlen_add_tail_le {s : State} (hi : s.Inv) (hp : s.phase = .absorb) {n : Nat} (hn : n ≤ 63) :
    s.mlen.toNat + n ≤ msgMax := by
  have hle := hi.mlen_le
  have hmod := hi.mlen_absorb hp
  unfold msgMax at hle ⊢
  omega

theorem absorbTail_mlen_toNat {s : State} {n : Nat} (h : s.mlen.toNat + n ≤ msgMax) :
    (absorbTail n s).mlen.toNat = s.mlen.toNat + n := by
  unfold msgMax at h
  rw [absorbTail_mlen, BitVec.toNat_ofNat, Nat.mod_eq_of_lt (by omega)]

/-- Settles O13: the sum stays within MSG_MAX (`mlen_add_tail_le`), so within 64 bits. -/
theorem finalStaysWithinLimit : Obligations.FinalStaysWithinLimit := by
  intro s n hi hp he hn
  have hle := mlen_add_tail_le hi hp hn
  refine ⟨hle, absorbTail n s, ?_, absorbTail_mlen_toNat hle⟩
  rw [exec_final_eq, if_pos he, if_pos hp]

/-! ## HEX -/

/-- Writing the same bytes again changes no byte, so not the canonical storage either. -/
theorem writeHex_writeHex {bs : List Byte} {m : Memory} (hm : m.wf = true) :
    writeHex bs (writeHex bs m) = writeHex bs m := by
  have hm₁ := wf_writeHex bs hm
  refine canonicalMemoriesEqual _ _ (wf_writeHex bs hm₁) hm₁ fun k => ?_
  by_cases hk : k < hexBase ∨ hexBase + bs.length ≤ k
  · exact read_writeBytes_outside _ hexBase bs k hk
  · obtain ⟨i, rfl⟩ : ∃ i, k = hexBase + i := ⟨k - hexBase, by omega⟩
    have hi : i < bs.length := by omega
    exact (read_writeBytes_inside hm₁ hexBase bs i hi).trans (read_writeBytes_inside hm hexBase bs i hi).symm

/-- Settles O12: after an error the lock holds the second HEX, and a digest written twice is written once. -/
theorem hexTwiceWritesTheSame : Obligations.HexTwiceWritesTheSame := by
  intro s t hm h
  obtain ⟨he, rfl⟩ | ⟨-, -, rfl⟩ | ⟨he, hp, rfl⟩ := execHex_cases h
  · exact h
  · exact exec_of_err_ne_none (by simp) rfl
  · rw [exec_hex_eq, if_pos (by simpa using he), if_neg (by simpa using hp)]
    simp only [writeDigest, writeHex_writeHex hm]

/-! ## The error a word leaves -/

/-- The error a command records when ERR was 0 (40_commands.md R107 to R109). -/
def errorOf (s : State) : Instr → Option CmdError
  | .nop => none
  | .initMd5 => none
  | .initSha1 => none
  | .initSha256 => none
  | .compress =>
    if s.phase ≠ .absorb then some .sequence
    else if msgMax < s.mlen.toNat + 64 then some .length
    else none
  | .final _ => if s.phase ≠ .absorb then some .sequence else none
  | .hex => if s.phase = .idle then some .sequence else none

theorem exec_errorOf (i : Instr) {s : State} (he : s.err = none) :
    ∃ t, exec i s = .next t ∧ t.err = errorOf s i := by
  cases i with
  | nop => exact ⟨s, rfl, he⟩
  | initMd5 => exact ⟨_, rfl, rfl⟩
  | initSha1 => exact ⟨_, rfl, rfl⟩
  | initSha256 => exact ⟨_, rfl, rfl⟩
  | compress =>
    refine ⟨_, exec_compress_eq s, ?_⟩
    rw [if_pos he, errorOf]
    split_ifs <;> simp_all
  | final n =>
    refine ⟨_, exec_final_eq n s, ?_⟩
    rw [if_pos he, errorOf]
    split_ifs <;> simp_all
  | hex =>
    refine ⟨_, exec_hex_eq s, ?_⟩
    rw [if_pos he, errorOf]
    split_ifs <;> simp_all

/-- The error of what a word decodes to, when ERR was 0. -/
def errorOfDecoded (s : State) : Decoded → Option CmdError
  | .err e => some e
  | .cmd i => errorOf s i

theorem runWord_errorOfDecoded (w : Word) {s : State} (he : s.err = none) :
    ∃ t, runWord w s = .next t ∧ t.err = errorOfDecoded s (decode w) := by
  cases hd : decode w with
  | err e => exact ⟨_, runWord_of_decode_err hd s, by rw [raiseError_err, he]; rfl⟩
  | cmd i => rw [runWord_of_decode_cmd hd]; exact exec_errorOf i he

/-- The error of the command an OP value gives (30_encoding.md R82). -/
theorem errorOfDecoded_command (s : State) {op : Nat} (hop : op < 5) (alg n : Nat) :
    errorOfDecoded s (.cmd (
      if op = 0 then .nop
      else if op = 1 then (if alg = 0 then .initMd5 else if alg = 1 then .initSha1 else .initSha256)
      else if op = 2 then .compress
      else if op = 3 then .final n
      else .hex)) =
    if (op = 2 ∨ op = 3) ∧ s.phase ≠ .absorb then some .sequence
    else if op = 4 ∧ s.phase = .idle then some .sequence
    else if op = 2 ∧ msgMax < s.mlen.toNat + 64 then some .length
    else none := by
  interval_cases op
  · simp [errorOfDecoded, errorOf]
  · by_cases h0 : alg = 0
    · simp [h0, errorOfDecoded, errorOf]
    · by_cases h1 : alg = 1 <;> simp [h0, h1, errorOfDecoded, errorOf]
  · simp [errorOfDecoded, errorOf]
  · simp [errorOfDecoded, errorOf]
  · simp [errorOfDecoded, errorOf]

/-- Settles O16: the errors of the decoder's checks in their order (`decoderChecksInOrder`), then those of the command
the OP gives. -/
theorem errorPriority : Obligations.ErrorPriority := by
  intro w s he op alg n
  obtain ⟨t, hrun, herr⟩ := runWord_errorOfDecoded w he
  refine ⟨t, hrun, ?_⟩
  have hd : decode w = if 5 ≤ op then _ else _ := decoderChecksInOrder w
  by_cases hop : 5 ≤ op
  · rw [herr, hd, if_pos hop, if_pos hop]
    rfl
  rw [herr, hd, if_neg hop, if_neg hop]
  simp only [ite_or, apply_ite (errorOfDecoded s)]
  exact if_congr .rfl rfl (if_congr .rfl rfl (if_congr .rfl rfl (if_congr .rfl rfl (if_congr .rfl rfl
    (errorOfDecoded_command s (by omega) alg n)))))

end Sys2Proof.Proofs
end

section
/-! One step, by its next event: completions, resets and placed words (40_commands.md R100, 60_exceptions.md R252,
70_reset_and_hazards.md R280, R289). -/

namespace Sys2Proof.Proofs

open Sys2Proof.Machine Sys2Proof.Laws

theorem step_of_completionNext {s : State} (h : completionNext s) : step s = complete (afterEvent s) := by
  obtain hin | ⟨rest, hin⟩ := h
  · rw [step_nil hin, afterEvent, hin, List.tail_nil, ← hin]
  · rw [step_complete hin, afterEvent, hin, List.tail_cons]

theorem step_of_resets {s : State} (h : s.resets) : step s = .next (resetBlock (afterEvent s)) := by
  obtain ⟨rest, hin⟩ := h
  rw [step_reset hin, afterEvent, hin, List.tail_cons]

theorem afterEvent_of_nil {s : State} (h : s.inputs = []) : afterEvent s = s := by
  rw [afterEvent, h, List.tail_nil, ← h]

theorem afterEvent_of_cons {s : State} {e : Input} {rest : List Input} (h : s.inputs = e :: rest) :
    afterEvent s = { s with inputs := rest } := by
  rw [afterEvent, h, List.tail_cons]

/-- With no command pending a completion does nothing (log 2). -/
theorem complete_idle {s : State} (hb : s.busy = false) : complete s = .next s := by
  simp [complete, hb]

/-- A pending word runs and is retired (40_commands.md R100). -/
theorem complete_of_runWord {s t : State} (hb : s.busy = true) (h : runWord s.cmdl s = .next t) :
    complete s = .next (retire t) := by
  rw [complete, if_pos hb, h, retireOutcome]

/-- A step that completes a pending word which decodes to a command. -/
theorem step_of_completes {s t : State} {i : Instr} (hc : s.completes i) (h : exec i (afterEvent s) = .next t) :
    step s = .next (retire t) := by
  obtain ⟨hnext, hb, hd⟩ := hc
  rw [step_of_completionNext hnext]
  exact complete_command hb hd h

/-- A step that completes a pending word which fails decode. -/
theorem step_of_decode_err {s : State} {e : CmdError} (hnext : completionNext s) (hb : s.busy = true)
    (hd : decode s.cmdl = .err e) : step s = .next (retire (raiseError e (afterEvent s))) := by
  rw [step_of_completionNext hnext]
  exact complete_error hb hd

/-- `raise Error` in one equation: the first error stays (60_exceptions.md R252). -/
theorem raiseError_eq (e : CmdError) (s : State) : raiseError e s = { s with err := some (s.err.getD e) } := by
  cases h : s.err with
  | none => rw [raiseError_of_err_none e h, Option.getD_none]
  | some e₀ => rw [raiseError_of_err_ne_none e (by simp [h]), Option.getD_some, ← h]

/-- Settles O14: `raiseError` by whether an error is recorded, and the step that completes a bad word. -/
theorem errorRecording : Obligations.ErrorRecording := by
  refine ⟨fun e s he => raiseError_of_err_none e he, fun e s he => raiseError_of_err_ne_none e he, ?event, ?noEvent⟩
  case event =>
    intro e s rest hin hb hd
    rw [step_of_decode_err (.inr ⟨rest, hin⟩) hb hd, afterEvent_of_cons hin, raiseError_eq, retire]
  case noEvent =>
    intro e s hin hb hd
    rw [step_of_decode_err (.inl hin) hb hd, afterEvent_of_nil hin, raiseError_eq, retire]

/-- A placed word is pending and its completion is the next event. -/
theorem withFetchWord_completes (s : State) {w : Nat} {i : Instr} (hw : w < 2 ^ 32)
    (hd : decode (BitVec.ofNat 32 w) = .cmd i) : (s.withFetchWord 32 w).completes i := by
  refine ⟨.inr ⟨s.inputs, rfl⟩, rfl, ?_⟩
  rw [State.withFetchWord, Nat.mod_eq_of_lt hw]
  exact hd

theorem afterEvent_withFetchWord (s : State) {w : Nat} (hw : w < 2 ^ 32) :
    afterEvent (s.withFetchWord 32 w) = { s with cmdl := BitVec.ofNat 32 w, busy := true } := by
  rw [State.withFetchWord, Nat.mod_eq_of_lt hw]
  rfl

/-- Settles O44: one rule per next event; a command's step is `step_of_completes`. -/
theorem stepRunsDecodedCommand : Obligations.StepRunsDecodedCommand := by
  refine ⟨?event, ?noEvent, ?idleEvent, ?idle, ?reset, ?placed⟩
  case event =>
    intro s t i rest hin hb hd hx
    rw [← afterEvent_of_cons hin] at hx
    exact step_of_completes ⟨.inr ⟨rest, hin⟩, hb, hd⟩ hx
  case noEvent =>
    intro s t i hin hb hd hx
    rw [← afterEvent_of_nil hin] at hx
    exact step_of_completes ⟨.inl hin, hb, hd⟩ hx
  case idleEvent =>
    intro s rest hin hb
    rw [step_complete hin]
    exact complete_idle hb
  case idle =>
    intro s hin hb
    rw [step_nil hin, complete_idle hb]
  case reset =>
    intro s rest hin
    exact step_reset hin
  case placed =>
    intro s t i w hw hd hx
    rw [← afterEvent_withFetchWord s hw] at hx
    exact step_of_completes (withFetchWord_completes s hw hd) hx

/-- The STATUS word of a reset block is that of the reset state: 0. -/
theorem statusWord_resetBlock (s : State) : statusWord (resetBlock s) = 0 := by
  have hreset : statusWord State.reset = 0 := by decide
  exact hreset

/-- Settles O45: the step is a reset, and every element of the reset state is 0. -/
theorem resetClearsEverything : Obligations.ResetClearsEverything := by
  intro s rest hin
  exact ⟨_, step_reset hin, rfl, read_nil, rfl, rfl, rfl, rfl, rfl, rfl, statusWord_resetBlock _⟩

end Sys2Proof.Proofs
end

section
/-! The register window: STATUS, the address decode, the accesses that stop the run, and what a read answers
(10_state.md R28, 20_memory.md R50 to R57, 60_exceptions.md R254, 70_reset_and_hazards.md R284). -/

namespace Sys2Proof.Proofs

open Sys2Proof.Machine Sys2Proof.Laws

/-! ## The STATUS word -/

/-- Putting `y` at bit `n` above a word that ends below it adds it there. -/
theorem or_shiftLeft_toNat {x : Word} {n w : Nat} (y : BitVec w) (hx : x.toNat < 2 ^ n) (hn : n + w ≤ 32) :
    (x ||| (y.setWidth 32 <<< n)).toNat = x.toNat + y.toNat * 2 ^ n := by
  have hy : y.toNat * 2 ^ n < 2 ^ 32 :=
    calc y.toNat * 2 ^ n < 2 ^ w * 2 ^ n := Nat.mul_lt_mul_of_pos_right y.isLt (by positivity)
      _ = 2 ^ (w + n) := (pow_add 2 w n).symm
      _ ≤ 2 ^ 32 := Nat.pow_le_pow_right (by decide) (by omega)
  have hy' : y.toNat < 2 ^ 32 := lt_of_le_of_lt (Nat.le_mul_of_pos_right _ (by positivity)) hy
  rw [BitVec.toNat_or, BitVec.toNat_shiftLeft, BitVec.toNat_setWidth, Nat.mod_eq_of_lt hy', Nat.shiftLeft_eq,
    Nat.mod_eq_of_lt hy, or_mul_two_pow _ hx]

/-- STATUS is the sum of its fields at their places (10_state.md R28). -/
theorem statusWord_toNat (s : State) : (statusWord s).toNat =
    (flagBit s.busy).toNat + (phaseCode s.phase).toNat * 2 ^ 1 + (algCode s.alg).toNat * 2 ^ 4 +
      (errCode s.err).toNat * 2 ^ 8 + (flagBit s.hexv).toNat * 2 ^ 12 := by
  have hbusy := (flagBit s.busy).isLt
  have hphase := (phaseCode s.phase).isLt
  have halg := (algCode s.alg).isLt
  have herr := (errCode s.err).isLt
  have h0 : ((flagBit s.busy).setWidth 32).toNat = (flagBit s.busy).toNat := by
    rw [BitVec.toNat_setWidth, Nat.mod_eq_of_lt (by omega)]
  have h1 := or_shiftLeft_toNat (x := (flagBit s.busy).setWidth 32) (n := 1) (phaseCode s.phase) (by omega) (by omega)
  have h2 := or_shiftLeft_toNat (n := 4) (algCode s.alg) (by rw [h1]; omega) (by omega)
  have h3 := or_shiftLeft_toNat (n := 8) (errCode s.err) (by rw [h2, h1]; omega) (by omega)
  have h4 := or_shiftLeft_toNat (n := 12) (flagBit s.hexv) (by rw [h3, h2, h1]; omega) (by omega)
  rw [statusWord, h4, h3, h2, h1, h0]

theorem flagBit_toNat (b : Bool) : (flagBit b).toNat = if b then 1 else 0 := by
  cases b <;> rfl

/-- Settles O36: the codes of the fields in `statusWord_toNat`; latching a command changes BUSY alone. -/
theorem statusRegisterLayout : Obligations.StatusRegisterLayout := by
  intro s state alg err rest
  have hstate : (phaseCode s.phase).toNat = state := by
    dsimp only [state]
    cases s.phase <;> rfl
  have halg : (algCode s.alg).toNat = alg := by
    dsimp only [alg]
    cases s.alg <;> rfl
  have herr : (errCode s.err).toNat = err := by
    dsimp only [err]
    cases s.err with
    | none => rfl
    | some e => cases e <;> rfl
  have hword : ∀ t : State, t.phase = s.phase → t.alg = s.alg → t.err = s.err → t.hexv = s.hexv →
      (statusWord t).toNat = (if t.busy then 1 else 0) + rest := by
    intro t h1 h2 h3 h4
    rw [statusWord_toNat, h1, h2, h3, h4, hstate, halg, herr, flagBit_toNat, flagBit_toNat]
    omega
  exact ⟨hword s rfl rfl rfl rfl, fun v => hword (latchCommand v s) rfl rfl rfl rfl⟩

/-! ## The address decode -/

theorem windowOffset_eq_none {rel : Int} (h : rel < 0 ∨ 0xFF < rel) : windowOffset rel = none := by
  rw [windowOffset, if_neg (by omega)]

/-- Settles O37: the window is the offsets 0 to 0xFF above HASH_BASE, and an access beside it is not answered. -/
theorem addressDecode : Obligations.AddressDecode := by
  refine ⟨fun address off => ?_, fun s a rest hin hout => ?_⟩
  · rw [windowOffset_eq_some, relOfAddress]
    omega
  · rw [step_access hin, busAccess_unselected _ (windowOffset_eq_none hout)]

/-! ## The accesses that stop the run -/

theorem step_of_illegal {s : State} {off : Nat} {op : BusOp} (ha : s.accesses off op)
    (hl : legal off op.width = false) : step s = .fault .busError := by
  cases op with
  | read n =>
    rw [BusOp.width] at hl
    rw [step_read ha, memRead, if_pos hl]
  | write n v =>
    rw [BusOp.width] at hl
    rw [step_write ha, memWrite, if_pos hl]

theorem step_of_hazard {s : State} {off : Nat} {op : BusOp} (ha : s.accesses off op)
    (hl : legal off op.width = true) (hb : s.busy = true) (hop : ¬(off = 0x04 ∧ op = .read .word)) :
    step s = .fault .hazardBusy := by
  cases op with
  | read n =>
    rw [BusOp.width] at hl
    rw [BusOp.read.injEq] at hop
    rw [step_read ha, memRead, if_neg (by simp [hl]), if_pos ⟨hb, hop⟩]
  | write n v =>
    rw [BusOp.width] at hl
    rw [step_write ha, memWrite, if_neg (by simp [hl]), if_pos hb]

theorem step_status_read {s : State} (ha : s.accesses 0x04 (.read .word)) :
    step s = .next { s with inputs := s.inputs.tail, response := .data .word (statusWord s) } := by
  rw [step_read ha, memRead_status]
  rfl

theorem step_read_of_idle {s : State} {off : Nat} {n : Width} (ha : s.accesses off (.read n))
    (hl : legal off n = true) (hb : s.busy = false) :
    step s = .next { s with inputs := s.inputs.tail, response := .data n (windowValue off n s) } := by
  have hread : memRead off n { s with inputs := s.inputs.tail } = .data (windowValue off n s) := memRead_idle hl hb
  rw [step_read ha, hread]

theorem step_write_of_idle {s : State} {off : Nat} {n : Width} {v : Word} (ha : s.accesses off (.write n v))
    (hl : legal off n = true) (hb : s.busy = false) : ∃ t, step s = .next t := by
  rw [step_write ha, memWrite, if_neg (by simp [hl]), if_neg (by simp [hb])]
  split_ifs
  · exact ⟨_, rfl⟩
  · exact ⟨_, rfl⟩
  · exact ⟨_, rfl⟩

/-- A legal access goes on when no command is pending, and so does a 32-bit read of STATUS. -/
theorem step_of_answered {s : State} {off : Nat} {op : BusOp} (ha : s.accesses off op)
    (hl : legal off op.width = true) (h : s.busy = false ∨ (off = 0x04 ∧ op = .read .word)) :
    ∃ t, step s = .next t := by
  obtain hb | ⟨rfl, rfl⟩ := h
  · cases op with
    | read n => exact ⟨_, step_read_of_idle ha hl hb⟩
    | write n v => exact step_write_of_idle ha hl hb
  · exact ⟨_, step_status_read ha⟩

theorem legal_eq_false_iff (off : Nat) (n : Width) :
    legal off n = false ↔ ¬(off % widthBytes n = 0 ∧ (widthBytes n = 4 ∨ (0x40 ≤ off ∧ off ≤ 0xBF))) := by
  rw [← legal_iff, Bool.not_eq_true]

/-- Settles O38: such an access is not legal. -/
theorem illegalAccessIsBusError : Obligations.IllegalAccessIsBusError := fun _ off op ha h =>
  step_of_illegal ha ((legal_eq_false_iff off op.width).mpr h)

/-- Settles O39: `step_of_hazard`, but for the read of STATUS, whose lowest bit is BUSY. -/
theorem busyHazard : Obligations.BusyHazard := by
  intro s off op ha hb halign hwidth
  have hl : legal off op.width = true := (legal_iff off op.width).mpr ⟨halign, hwidth⟩
  refine ⟨fun hop => step_of_hazard ha hl hb hop, ?_⟩
  rintro ⟨rfl, rfl⟩
  refine ⟨step_status_read ha, ?_⟩
  rw [statusWord_toNat, flagBit_toNat, if_pos hb]
  omega

/-! ## A step faults exactly on the host faults -/

theorem hostFault_of_accesses {s : State} {off : Nat} {op : BusOp} (ha : s.accesses off op) : s.hostFault =
    if legal off op.width = false then some .busError
    else if s.busy && !(decide (off = 0x04) && decide (op = .read .word)) then some .hazardBusy
    else none := by
  obtain ⟨a, rest, hin, hoff, rfl⟩ := ha
  simp only [State.hostFault, hin, hoff]

/-- A pending word always runs: a command answers a next state, and so does an error of decode. -/
theorem runWord_next (w : Word) (s : State) : ∃ t, runWord w s = .next t := by
  cases hd : decode w with
  | err e => exact ⟨_, runWord_of_decode_err hd s⟩
  | cmd i => rw [runWord_of_decode_cmd hd]; exact commandsNeverStop i s

theorem complete_next (s : State) : ∃ t, complete s = .next t := by
  cases hb : s.busy with
  | false => exact ⟨s, complete_idle hb⟩
  | true =>
    obtain ⟨t, ht⟩ := runWord_next s.cmdl s
    exact ⟨_, complete_of_runWord hb ht⟩

/-- The next event is an access to the window, or one that no step faults on. -/
theorem accesses_or_step_next (s : State) :
    (∃ off op, s.accesses off op) ∨ (s.hostFault = none ∧ ∃ t, step s = .next t) := by
  cases hin : s.inputs with
  | nil =>
    refine .inr ⟨by simp only [State.hostFault, hin], ?_⟩
    rw [step_nil hin]
    exact complete_next s
  | cons e rest =>
    cases e with
    | complete =>
      refine .inr ⟨by simp only [State.hostFault, hin], ?_⟩
      rw [step_complete hin]
      exact complete_next _
    | reset => exact .inr ⟨by simp only [State.hostFault, hin], _, step_reset hin⟩
    | access a =>
      cases hoff : windowOffset a.rel with
      | none =>
        refine .inr ⟨by simp only [State.hostFault, hin, hoff], ?_⟩
        rw [step_access hin, busAccess_unselected _ hoff]
        exact ⟨_, rfl⟩
      | some off => exact .inl ⟨off, a.op, a, rest, hin, hoff, rfl⟩

/-- A step is what `State.hostFault` says of its next event: the fault, or a next state. -/
theorem step_eq_of_hostFault (s : State) :
    (∃ f, s.hostFault = some f ∧ step s = .fault f) ∨ (s.hostFault = none ∧ ∃ t, step s = .next t) := by
  obtain ⟨off, op, ha⟩ | hnext := accesses_or_step_next s
  case inr => exact .inr hnext
  rw [hostFault_of_accesses ha]
  by_cases hl : legal off op.width = false
  · exact .inl ⟨_, if_pos hl, step_of_illegal ha hl⟩
  rw [if_neg hl]
  rw [Bool.not_eq_false] at hl
  by_cases hop : s.busy = false ∨ (off = 0x04 ∧ op = .read .word)
  · refine .inr ⟨if_neg ?_, step_of_answered ha hl hop⟩
    obtain hb | ⟨rfl, rfl⟩ := hop <;> simp [*]
  · rw [not_or, Bool.not_eq_false] at hop
    refine .inl ⟨_, if_pos ?_, step_of_hazard ha hl hop.1 hop.2⟩
    simpa [imp_iff_not_or] using hop

/-- Settles O48: both directions from `step_eq_of_hostFault`, which leaves no refusal. -/
theorem stepFaultsExactlyOnHostFaults : Obligations.StepFaultsExactlyOnHostFaults := by
  intro s
  obtain ⟨f, hf, hs⟩ | ⟨hf, t, hs⟩ := step_eq_of_hostFault s
  · rw [hf, hs]
    exact ⟨fun g => by rw [Host.Outcome.fault.injEq, Option.some.injEq], fun r => nofun⟩
  · rw [hf, hs]
    exact ⟨fun g => ⟨nofun, nofun⟩, fun r => nofun⟩

/-! ## What a read answers -/

/-- The bytes of a read as a number, least significant first (20_memory.md R57). -/
theorem assemble_readBytes_toNat (m : Memory) (a : Nat) {n : Nat} (hn : n ≤ 4) :
    (assemble (Memory.readBytes m a n)).toNat =
      ∑ i ∈ Finset.range n, (Memory.read m (a + i)).toNat * 2 ^ (8 * i) := by
  induction n generalizing a with
  | zero => rfl
  | succ n ih =>
    have hcons := (assemble_cons_toNat (Memory.read m a) (Memory.readBytes m (a + 1) n) (by simp; omega)).1
    rw [Memory.readBytes, hcons, ih (a + 1) (by omega), Finset.sum_range_succ', Finset.mul_sum, add_comm]
    congr 1
    · refine Finset.sum_congr rfl fun i _ => ?_
      rw [show a + 1 + i = a + (i + 1) by omega, show 8 * (i + 1) = 8 + 8 * i by omega, pow_add]
      ring
    · simp

theorem windowValue_hash {off k : Nat} (n : Width) (s : State) (hk : k < 8) (ho : off = 0x20 + 4 * k) :
    windowValue off n s = s.hash.get k := by
  subst ho
  rw [windowValue, if_neg (by omega), if_neg (by omega), if_neg (by omega), if_neg (by omega), if_pos (by omega),
    show (0x20 + 4 * k - 0x20) / 4 = k by omega]

theorem windowValue_buffers {off : Nat} (n : Width) (s : State) (hlo : 0x40 ≤ off) (hhi : off ≤ 0xBF) :
    windowValue off n s = assemble (Memory.readBytes s.mem off (widthBytes n)) := by
  rw [windowValue, if_neg (by omega), if_neg (by omega), if_neg (by omega), if_neg (by omega), if_neg (by omega),
    if_pos ⟨hlo, hhi⟩]

theorem windowValue_reserved {off : Nat} (n : Width) (s : State) (ho : (0x10 ≤ off ∧ off ≤ 0x1F) ∨ 0xC0 ≤ off) :
    windowValue off n s = 0 := by
  rw [windowValue, if_neg (by omega), if_neg (by omega), if_neg (by omega), if_neg (by omega), if_neg (by omega),
    if_neg (by omega)]

theorem widthBytes_le (n : Width) : widthBytes n ≤ 4 := by
  cases n <;> decide

/-- Settles O40: the answer is `windowValue`, location by location. -/
theorem registerMapReads : Obligations.RegisterMapReads := by
  intro s off n ha hb halign hwidth
  have hl : legal off n = true := (legal_iff off n).mpr ⟨halign, hwidth⟩
  refine ⟨windowValue off n s, step_read_of_idle ha hl hb, ?cmd, ?status, ?mlenLow, ?mlenHigh,
    fun k hk ho => windowValue_hash n s hk ho, fun hlo hhi => ?buffers, fun ho => windowValue_reserved n s ho⟩
  case cmd => rintro rfl; rfl
  case status => rintro rfl; rfl
  case mlenLow =>
    rintro rfl
    show (s.mlen.extractLsb' 0 32).toNat = _
    rw [BitVec.extractLsb'_toNat, Nat.shiftRight_zero]
  case mlenHigh =>
    rintro rfl
    show (s.mlen.extractLsb' 32 32).toNat = _
    rw [BitVec.extractLsb'_toNat, Nat.shiftRight_eq_div_pow, Nat.mod_eq_of_lt (by omega)]
  case buffers =>
    rw [windowValue_buffers n s hlo hhi, assemble_readBytes_toNat _ _ (widthBytes_le n)]

end Sys2Proof.Proofs
end

section
/-! Runs of several events, and what they give: mixed bus widths, the end of a pending command, and polls (20_memory.md
R58, R62, 70_reset_and_hazards.md R288, R289). -/

namespace Sys2Proof.Proofs

open Sys2Proof.Machine Sys2Proof.Laws

/-! ## Events taken one after the other -/

/-- Taking the events `es`, whatever comes after them, leads from `s` to `t`; the events `s` and `t` hold do not
count. -/
def RunsTo (es : List Input) (s t : State) : Prop :=
  ∀ rest, Sys2Proof.core.run es.length { s with inputs := es ++ rest } = .next { t with inputs := rest }

theorem runsTo_nil (s : State) : RunsTo [] s s := fun _ => rfl

theorem runsTo_cons {e : Input} {es : List Input} {s t u : State}
    (h : ∀ rest, step { s with inputs := e :: rest } = .next { t with inputs := rest }) (ht : RunsTo es t u) :
    RunsTo (e :: es) s u := fun rest =>
  (core_run_next es.length (h (es ++ rest))).trans (ht rest)

theorem runsTo_append {es es' : List Input} {s t u : State} (hs : RunsTo es s t) (ht : RunsTo es' t u) :
    RunsTo (es ++ es') s u := by
  intro rest
  rw [List.length_append, List.append_assoc]
  exact (core_run_add es.length es'.length (hs (es' ++ rest))).trans (ht rest)

theorem run_of_runsTo {es rest : List Input} {s t : State} (h : RunsTo es s t) (hin : s.inputs = es ++ rest) :
    Sys2Proof.core.run es.length s = .next { t with inputs := rest } := by
  have hrun := h rest
  rwa [← hin] at hrun

theorem step_rd32_status (s : State) (rest : List Input) :
    step { s with inputs := rd32 0x04 :: rest } =
      .next { s with inputs := rest, response := .data .word (statusWord s) } :=
  step_poll (s := { s with inputs := rd32 0x04 :: rest }) rfl

/-- Reads of STATUS change the last answer at most. -/
theorem runsTo_polls (k : Nat) (s : State) : ∃ r, RunsTo (List.replicate k (rd32 0x04)) s { s with response := r } := by
  induction k generalizing s with
  | zero => exact ⟨s.response, runsTo_nil s⟩
  | succ k ih =>
    obtain ⟨r, hr⟩ := ih { s with response := .data .word (statusWord s) }
    exact ⟨r, runsTo_cons (step_rd32_status s) hr⟩

/-! ## Writes to BLK -/

/-- An aligned access to BLK is legal, whatever its width (20_memory.md R52). -/
theorem legal_in_blk {off : Nat} {n : Width} (h : off % widthBytes n = 0) (hlo : 0x40 ≤ off) (hhi : off ≤ 0x7F) :
    legal off n = true :=
  (legal_iff off n).mpr ⟨h, .inr ⟨hlo, by omega⟩⟩

theorem lanes_one (b : Byte) : lanes 1 (b.setWidth 32) = [b] := by
  have hb : (b.setWidth 32).extractLsb' 0 8 = b := by
    apply BitVec.eq_of_toNat_eq
    rw [BitVec.extractLsb'_toNat, BitVec.toNat_setWidth, Nat.shiftRight_zero]
    omega
  rw [lanes, lanes, hb]

theorem step_wr8 {s : State} (hb : s.busy = false) {i : Nat} (hi : i < 64) (b : Byte) (rest : List Input) :
    step { s with inputs := wr8 (0x40 + i) b :: rest } =
      .next { s with inputs := rest, response := .written, mem := Memory.write s.mem (0x40 + i) b } := by
  have hl : legal (0x40 + i) .byte = true := legal_in_blk (Nat.mod_one _) (by omega) (by omega)
  have hstep := step_write_blk (s := { s with inputs := wr8 (0x40 + i) b :: rest }) rfl hl hb (by omega) (by omega)
  rw [hstep, widthBytes, lanes_one]
  rfl

/-- Bytes written to BLK one by one stand there from `i` up (30_encoding.md R90). -/
theorem runsTo_blkFrom {s : State} (hb : s.busy = false) {i : Nat} {bs : List Byte} (h : i + bs.length ≤ 64) :
    ∃ r, RunsTo (blkFrom i bs) s { s with mem := Memory.writeBytes s.mem (0x40 + i) bs, response := r } := by
  induction bs generalizing s i with
  | nil => exact ⟨s.response, runsTo_nil s⟩
  | cons b bs ih =>
    rw [List.length_cons] at h
    obtain ⟨r, hr⟩ := ih (s := { s with mem := Memory.write s.mem (0x40 + i) b, response := .written })
      (i := i + 1) hb (by omega)
    exact ⟨r, runsTo_cons (step_wr8 hb (by omega) b) hr⟩

theorem blk_getD (s : State) {i : Nat} (hi : i < 64) : s.blk.getD i 0 = Memory.read s.mem (0x40 + i) := by
  have hlen : i < (Memory.readBytes s.mem blkBase 64).length := by rwa [readBytes_length]
  rw [State.blk, List.getD_eq_getElem _ 0 hlen, readBytes_getElem]
  rfl

/-! ## Mixed widths -/

/-- Four bytes of a read, least significant first. -/
theorem assemble_four_toNat (b0 b1 b2 b3 : Byte) : (assemble [b0, b1, b2, b3]).toNat =
    b0.toNat + 2 ^ 8 * b1.toNat + 2 ^ 16 * b2.toNat + 2 ^ 24 * b3.toNat := by
  rw [(assemble_cons_toNat b0 [b1, b2, b3] (by simp)).1, (assemble_cons_toNat b1 [b2, b3] (by simp)).1,
    (assemble_cons_toNat b2 [b3] (by simp)).1, (assemble_cons_toNat b3 [] (by simp)).1, assemble_nil_toNat]
  omega

/-- The next event is a 32-bit write to BLK. -/
theorem step_wr32 {s : State} (hb : s.busy = false) {k : Nat} (hk : k < 16) {v : Word} {rest : List Input}
    (hin : s.inputs = wr32 (0x40 + 4 * k) v :: rest) :
    step s = .next { s with
      inputs := rest, response := .written, mem := Memory.writeBytes s.mem (0x40 + 4 * k) (lanes 4 v) } := by
  have hl : legal (0x40 + 4 * k) .word = true :=
    legal_in_blk (n := .word) (show (0x40 + 4 * k) % 4 = 0 by omega) (by omega) (by omega)
  exact step_write_blk hin hl hb (by omega) (by omega)

/-- Settles O42: the first read is of a byte that `lanes` stored, the second of the four bytes a run of writes
stored. -/
theorem mixedWidthReadBack : Obligations.MixedWidthReadBack := by
  intro s k rest hwf hb hk
  refine ⟨fun v i hi hin => ?wordThenByte, fun b0 b1 b2 b3 hin => ?bytesThenWord⟩
  case wordThenByte =>
    have hl : legal (0x40 + 4 * k + i) .byte = true := legal_in_blk (Nat.mod_one _) (by omega) (by omega)
    have hread := step_read_idle (s := { s with
      inputs := rd8 (0x40 + 4 * k + i) :: rest, response := .written
      mem := Memory.writeBytes s.mem (0x40 + 4 * k) (lanes 4 v) }) rfl hl hb (by omega)
    refine ⟨_, _, (core_run_next 1 (step_wr32 hb hk hin)).trans (core_run_one hread), rfl, ?_⟩
    rw [windowValue_buffers _ _ (by omega) (by omega), assemble_readBytes_toNat _ _ (by decide), widthBytes,
      Finset.sum_range_one, mul_zero, pow_zero, mul_one]
    exact read_writeBytes_lanes_toNat hwf (0x40 + 4 * k) 4 v hi
  case bytesThenWord =>
    have hlen : ([b0, b1, b2, b3] : List Byte).length = 4 := rfl
    obtain ⟨r, hruns⟩ := runsTo_blkFrom hb (i := 4 * k) (bs := [b0, b1, b2, b3]) (by omega)
    have hwrites := run_of_runsTo (rest := rd32 (0x40 + 4 * k) :: rest) hruns hin
    have hl : legal (0x40 + 4 * k) .word = true :=
      legal_in_blk (n := .word) (show (0x40 + 4 * k) % 4 = 0 by omega) (by omega) (by omega)
    have hread := step_read_idle (s := { s with
      inputs := rd32 (0x40 + 4 * k) :: rest, response := r
      mem := Memory.writeBytes s.mem (0x40 + 4 * k) [b0, b1, b2, b3] }) rfl hl hb (by omega)
    refine ⟨_, _, (core_run_add 4 1 hwrites).trans (core_run_one hread), rfl, ?_⟩
    rw [windowValue_buffers _ _ (by omega) (by omega), widthBytes, ← hlen, readBytes_writeBytes hwf,
      assemble_four_toNat]

/-- Settles O43: message word k is the four bytes the write stored, in either order. -/
theorem busWordsToMessageWords : Obligations.BusWordsToMessageWords := by
  intro s k v rest hwf hb hk hin
  refine ⟨_, step_wr32 hb hk hin, ?_⟩
  generalize ht : ({ s with
    inputs := rest, response := .written, mem := Memory.writeBytes s.mem (0x40 + 4 * k) (lanes 4 v) } : State) = t
  have hbyte : ∀ i < 4, (t.blk.getD (4 * k + i) 0).toNat = v.toNat / 2 ^ (8 * i) % 256 := by
    intro i hi
    rw [blk_getD t (by omega), ← ht, ← read_writeBytes_lanes_toNat hwf (0x40 + 4 * k) 4 v hi, Nat.add_assoc]
  have h0 := hbyte 0 (by decide)
  have h1 := hbyte 1 (by decide)
  have h2 := hbyte 2 (by decide)
  have h3 := hbyte 3 (by decide)
  have hbytes : 4 * k + 3 < t.blk.length := by rw [blk_length]; omega
  constructor
  · apply BitVec.eq_of_toNat_eq
    rw [leWords_getD k t.blk hbytes, le32_toNat, h1, h2, h3, ← Nat.add_zero (4 * k), h0]
    omega
  · rw [beWords_getD k t.blk hbytes, be32_toNat, h1, h2, h3, ← Nat.add_zero (4 * k), h0]
    omega

/-! ## The end of a pending command -/

/-- An access that goes on while a command is pending takes its event and changes the last answer at most. -/
theorem step_access_busy {s t : State} {a : Access} {rest : List Input} (hin : s.inputs = .access a :: rest)
    (hb : s.busy = true) (h : step s = .next t) : t = { s with inputs := rest, response := t.response } := by
  rw [step_access hin] at h
  exact busAccess_busy (s := { s with inputs := rest }) hb h

/-- A pending command's completion, the word run and then retired. -/
theorem step_completes_word {s : State} (hb : s.busy = true) (hnext : completionNext s) :
    ∃ t, runWord s.cmdl (afterEvent s) = .next t ∧ step s = .next (retire t) := by
  obtain ⟨t, ht⟩ := runWord_next s.cmdl (afterEvent s)
  refine ⟨t, ht, ?_⟩
  rw [step_of_completionNext hnext]
  exact complete_of_runWord hb ht

/-- Settles O49, by induction on the events to come: an access that goes on leaves the block as it is with one event
less, and every other next event ends the wait. -/
theorem pendingCommandCompletes : Obligations.PendingCommandCompletes := by
  intro s hb
  generalize hes : s.inputs = es
  induction es generalizing s with
  | nil =>
    have hhere : s = { s with inputs := [].drop 0, response := s.response } := by rw [List.drop_zero, ← hes]
    exact ⟨0, s, Nat.zero_le _, rfl, hhere, .inl ⟨.inl hes, step_completes_word hb (.inl hes)⟩⟩
  | cons e es ih =>
    have hhere : s = { s with inputs := (e :: es).drop 0, response := s.response } := by rw [List.drop_zero, ← hes]
    cases e with
    | complete =>
      have hnext : completionNext s := .inr ⟨es, hes⟩
      exact ⟨0, s, Nat.zero_le _, rfl, hhere, .inl ⟨hnext, step_completes_word hb hnext⟩⟩
    | reset => exact ⟨0, s, Nat.zero_le _, rfl, hhere, .inr (.inl ⟨es, hes, step_reset hes⟩)⟩
    | access a =>
      obtain hfault | ⟨-, t, ht⟩ := step_eq_of_hostFault s
      · exact ⟨0, s, Nat.zero_le _, rfl, hhere, .inr (.inr hfault)⟩
      · have heq := step_access_busy hes hb ht
        obtain ⟨k, u, hk, hrun, hu, hend⟩ := ih t (by rw [heq]; exact hb) (by rw [heq])
        have hcmdl : t.cmdl = s.cmdl := by rw [heq]
        rw [hcmdl] at hend
        refine ⟨k + 1, u, by simp; omega, (core_run_next k ht).trans hrun, ?_, hend⟩
        rw [hu, heq, List.drop_succ_cons]

/-! ## Polls do not change the result -/

theorem complete_setResponse {s t : State} (h : complete s = .next t) (r : Response) :
    complete { s with response := r } = .next { t with response := r } := by
  obtain ⟨hb, rfl⟩ | ⟨hb, e, hd, rfl⟩ | ⟨hb, i, u, hd, hx, rfl⟩ := complete_cases h
  · exact complete_idle hb
  · exact (complete_error (s := { s with response := r }) hb hd).trans (by rw [raiseError_setResponse]; rfl)
  · exact complete_command (s := { s with response := r }) hb hd (exec_setResponse hx r)

/-- Settles O50: polls change the last answer only (`runsTo_polls`), which no completion reads. -/
theorem timingDoesNotAffectResult : Obligations.TimingDoesNotAffectResult := by
  intro s t k rest hb hin h
  obtain ⟨r, hpolls⟩ := runsTo_polls k s
  have hrun := hpolls s.inputs
  rw [List.length_replicate] at hrun
  have hstep : step { s with response := r } = .next { t with response := r } := by
    rw [step_complete (s := { s with response := r }) hin]
    rw [step_complete hin] at h
    exact complete_setResponse h r
  exact ⟨r, (core_run_add k 1 hrun).trans (core_run_one hstep)⟩

end Sys2Proof.Proofs
end

section
/-! The padded message: its parts, its length field and its blocks (41_padder.md R130 to R139). -/

namespace Sys2Proof.Proofs

open Sys2Proof.Machine Sys2Proof.Laws

/-! ## The whole-message padding -/

theorem pad_eq (alg : Alg) (m : List Byte) :
    pad alg m = m ++ 0x80 :: (List.replicate (zeroCount m.length) 0 ++ lenField alg m.length) := by
  simp [pad]

theorem pad_length (alg : Alg) (m : List Byte) : (pad alg m).length = m.length + 9 + zeroCount m.length := by
  rw [pad_eq, List.length_append, List.length_cons, List.length_append, List.length_replicate, lenField_length]
  omega

theorem pad_getD_marker (alg : Alg) (m : List Byte) : (pad alg m).getD m.length 0 = 0x80 := by
  rw [pad_eq, List.getD_append_right _ _ _ _ le_rfl, Nat.sub_self, List.getD_cons_zero]

theorem pad_getD_zeros (alg : Alg) (m : List Byte) {k : Nat} (hk : k < zeroCount m.length) :
    (pad alg m).getD (m.length + 1 + k) 1 = 0 := by
  have hk' : k < (List.replicate (zeroCount m.length) (0 : Byte)).length := by rwa [List.length_replicate]
  rw [pad_eq, List.getD_append_right _ _ _ _ (by omega), show m.length + 1 + k - m.length = k + 1 by omega,
    List.getD_cons_succ, List.getD_append _ _ _ _ hk', List.getD_eq_getElem _ _ hk', List.getElem_replicate]

theorem pad_drop_lenField (alg : Alg) (m : List Byte) :
    (pad alg m).drop ((pad alg m).length - 8) = lenField alg m.length := by
  have hlen : (pad alg m).length - 8 = (m ++ [0x80] ++ List.replicate (zeroCount m.length) (0x00 : Byte)).length := by
    rw [pad, List.length_append, lenField_length, Nat.add_sub_cancel]
  rw [hlen, pad, List.drop_left]

/-- Settles O28: the parts of the padding in order, and the zero count as a number. -/
theorem paddedLength : Obligations.PaddedLength := by
  intro alg m
  refine ⟨zeroCount m.length, ?le, ?fills, ?least, ?residue, pad_length alg m, ?blocks, ?message,
    pad_getD_marker alg m, fun k hk => pad_getD_zeros alg m hk, pad_drop_lenField alg m⟩
  case blocks =>
    rw [pad_length, zeroCount]
    omega
  case message => rw [pad_eq, List.take_left]
  all_goals
    unfold zeroCount
    omega

/-! ## The length field -/

theorem le64Bytes_getD (v : DWord) {i : Nat} (hi : i < 8) : (le64Bytes v).getD i 0 = v.extractLsb' (8 * i) 8 := by
  interval_cases i <;> rfl

theorem be64Bytes_getD (v : DWord) {i : Nat} (hi : i < 8) :
    (be64Bytes v).getD i 0 = v.extractLsb' (8 * (7 - i)) 8 := by
  interval_cases i <;> rfl

/-- Byte `i` of the length in bits, counted from the least significant. -/
theorem lenBits_byte_toNat {len : Nat} (h : 8 * len < 2 ^ 64) (i : Nat) :
    ((BitVec.ofNat 64 (8 * len)).extractLsb' (8 * i) 8).toNat = 8 * len / 256 ^ i % 256 := by
  rw [BitVec.extractLsb'_toNat, BitVec.toNat_ofNat, Nat.mod_eq_of_lt h, Nat.shiftRight_eq_div_pow, pow_mul]
  rfl

/-- Settles O29: the bytes of the length in bits, in the order of the algorithm. -/
theorem lengthFieldByteOrder : Obligations.LengthFieldByteOrder := by
  intro len hlen
  have h : 8 * len < 2 ^ 64 := by omega
  refine ⟨h, fun i hi => ⟨?_, ?_, ?_⟩⟩
  · rw [lenField, le64Bytes_getD _ hi, lenBits_byte_toNat h]
  · rw [lenField, be64Bytes_getD _ hi, lenBits_byte_toNat h]
  · rw [lenField, be64Bytes_getD _ hi, lenBits_byte_toNat h]

/-- Equal length fields hold a length whose bytes read the same in both orders. -/
theorem bytes_eq_of_lenField_eq {len : Nat} (hlen : len ≤ 2 ^ 61 - 1) (h : lenField .md5 len = lenField .sha1 len)
    {i : Nat} (hi : i < 8) : 8 * len / 256 ^ i % 256 = 8 * len / 256 ^ (7 - i) % 256 := by
  obtain ⟨hmd5, hsha1, -⟩ := (lengthFieldByteOrder len hlen).2 i hi
  rw [← hmd5, ← hsha1, h]

/-- Settles O30: below 2^32 + 2^24 bits the three high bytes are 0, so bytes that read the same in both orders are all
0, and the two lengths beside the range are evaluated. -/
theorem lengthFieldSwapChangesPadding : Obligations.LengthFieldSwapChangesPadding := by
  refine ⟨fun len hpos hlt heq => ?_, by decide, by decide⟩
  have hbyte := fun i hi => bytes_eq_of_lenField_eq (by omega) heq (i := i) hi
  have h0 := hbyte 0 (by decide)
  have h1 := hbyte 1 (by decide)
  have h2 := hbyte 2 (by decide)
  have h3 := hbyte 3 (by decide)
  norm_num at h0 h1 h2 h3
  have e0 : 8 * len / 72057594037927936 = 0 := Nat.div_eq_of_lt (by omega)
  have e1 : 8 * len / 281474976710656 = 0 := Nat.div_eq_of_lt (by omega)
  have e2 : 8 * len / 1099511627776 = 0 := Nat.div_eq_of_lt (by omega)
  rw [e0] at h0
  rw [e1] at h1
  rw [e2] at h2
  obtain ⟨y, hy⟩ : ∃ y, 8 * len = 16777216 * y := ⟨8 * len / 16777216, by omega⟩
  have e3 : 8 * len / 16777216 = y := by omega
  have e4 : 8 * len / 4294967296 = y / 256 := by omega
  rw [e3, e4] at h3
  obtain htop | htop : y / 256 = 0 ∨ y / 256 = 1 := by omega
  · omega
  · omega

/-! ## Blocks -/

/-- Settles O31: the two cases of the tail padder, and the sizes of their parts. -/
theorem tailPadderBlocks : Obligations.TailPadderBlocks := by
  refine fun alg t len => ⟨padTail_of_le_55 alg len, padTail_of_ge_56 alg len, fun ht b hb => ?_⟩
  by_cases hle : t.length ≤ 55
  · rw [padTail_of_le_55 alg len hle, List.mem_singleton] at hb
    rw [hb]
    simp
    omega
  · rw [padTail_of_ge_56 alg len (by omega) ht, List.mem_pair] at hb
    obtain rfl | rfl := hb
    · simp
      omega
    · simp

theorem padTail_length {alg : Alg} {t : List Byte} (len : Nat) (ht : t.length ≤ 63) :
    (padTail alg t len).length = if t.length ≤ 55 then 1 else 2 := by
  by_cases hle : t.length ≤ 55
  · rw [padTail_of_le_55 alg len hle, if_pos hle, List.length_singleton]
  · rw [padTail_of_ge_56 alg len (by omega) ht, if_neg hle]
    rfl

/-- Cutting the tail's bytes into blocks loses none. -/
theorem padTail_flatten (alg : Alg) {t : List Byte} (len : Nat) (ht : t.length ≤ 63) :
    (padTail alg t len).flatten = padTailBytes alg t len := by
  by_cases hle : t.length ≤ 55
  · rw [padTail_of_le_55 alg len hle, List.flatten_singleton, padTailBytes, zeroCount_of_le_55 hle]
  · rw [padTail_of_ge_56 alg len (by omega) ht, padTailBytes, zeroCount_of_ge_56 (by omega) ht,
      ← List.replicate_append_replicate]
    simp

/-- Whole blocks do not change the zero count. -/
theorem zeroCount_mod (n : Nat) : zeroCount (n % 64) = zeroCount n := by
  rw [zeroCount, Nat.mod_mod, zeroCount]

theorem length_drop_blocks (m : List Byte) : (m.drop (64 * (m.length / 64))).length = m.length % 64 := by
  rw [List.length_drop]
  omega

/-- Settles O32: the tail has as many zeros as the message, and is what the blocks before it leave. -/
theorem paddingSplitsAtBlocks : Obligations.PaddingSplitsAtBlocks := by
  intro alg m q
  have htail : (m.drop (64 * q)).length = m.length % 64 := length_drop_blocks m
  rw [padTail_flatten alg m.length (by omega), padTailBytes, htail, zeroCount_mod, pad]
  simp only [← List.append_assoc, List.take_append_drop]

/-- Settles O33: the padding is the blocks of the message and those of the tail. -/
theorem blockCountOfMessage : Obligations.BlockCountOfMessage := by
  intro alg m q p
  have htail : (m.drop (64 * q)).length = m.length % 64 := length_drop_blocks m
  refine ⟨?_, by rw [padTail_length m.length (by omega), htail]⟩
  rw [pad_length, zeroCount]
  by_cases hle : m.length % 64 ≤ 55
  · have hp : p = 1 := if_pos hle
    omega
  · have hp : p = 2 := if_neg hle
    omega

end Sys2Proof.Proofs
end

section
/-! The compressors round by round, their tables, and the words they do not touch (42_md5.md R151 to R161, 43_sha1.md
R181 to R188, 44_sha256.md R200 to R208). -/

namespace Sys2Proof.Proofs

open Sys2Proof.Machine Sys2Proof.Laws

/-! ## Message words and schedules as sequences -/

/-- A list to which each index of a range adds the word `next` gives it. -/
def extendBy (next : List Word → Nat → Word) (ws : List Word) (start n : Nat) : List Word :=
  (List.range' start n).foldl (fun ws t => ws ++ [next ws t]) ws

theorem extendBy_succ (next : List Word → Nat → Word) (ws : List Word) (start n : Nat) :
    extendBy next ws start (n + 1) =
      extendBy next ws start n ++ [next (extendBy next ws start n) (start + n)] := by
  simp [extendBy, List.range'_concat]

@[simp] theorem extendBy_length (next : List Word → Nat → Word) (ws : List Word) (start n : Nat) :
    (extendBy next ws start n).length = ws.length + n := by
  induction n with
  | zero => rfl
  | succ n ih => rw [extendBy_succ, List.length_append, ih, List.length_singleton, Nat.add_assoc]

/-- Extending a list keeps the words it has. -/
theorem extendBy_getD_of_le (next : List Word → Nat → Word) (ws : List Word) (start : Nat) {j k n : Nat}
    (hj : j < ws.length + k) (hk : k ≤ n) :
    (extendBy next ws start n).getD j 0 = (extendBy next ws start k).getD j 0 := by
  induction n, hk using Nat.le_induction with
  | base => rfl
  | succ n hkn ih => rw [extendBy_succ, List.getD_append _ _ _ _ (by rw [extendBy_length]; omega), ih]

theorem extendBy_getD_of_lt (next : List Word → Nat → Word) (ws : List Word) (start n : Nat) {j : Nat}
    (hj : j < ws.length) : (extendBy next ws start n).getD j 0 = ws.getD j 0 :=
  extendBy_getD_of_le next ws start (k := 0) hj (Nat.zero_le n)

/-- From index 16 on, word `t` depends on the words before it only. -/
def LooksBack (next : List Word → Nat → Word) : Prop :=
  ∀ (ws ws' : List Word) (t : Nat), 16 ≤ t → (∀ j < t, ws.getD j 0 = ws'.getD j 0) → next ws t = next ws' t

/-- A schedule obeys its recurrence: from index 16 on, each word is `next` of the schedule. -/
theorem extendBy_getD_eq_next {next : List Word → Nat → Word} (hnext : LooksBack next) {ws : List Word} {n t : Nat}
    (hws : ws.length = 16) (hlo : 16 ≤ t) (hhi : t < 16 + n) :
    (extendBy next ws 16 n).getD t 0 = next (extendBy next ws 16 n) t := by
  obtain ⟨k, rfl⟩ := Nat.exists_eq_add_of_le hlo
  have hlen : (extendBy next ws 16 k).length = 16 + k := by rw [extendBy_length, hws]
  have hadded : (extendBy next ws 16 (k + 1)).getD (16 + k) 0 = next (extendBy next ws 16 k) (16 + k) := by
    rw [extendBy_succ, List.getD_append_right _ _ _ _ hlen.le, hlen, Nat.sub_self, List.getD_cons_zero]
  rw [extendBy_getD_of_le next ws 16 (k := k + 1) (by omega) (by omega), hadded]
  exact hnext _ _ _ hlo fun j hj => (extendBy_getD_of_le next ws 16 (by omega) (by omega)).symm

/-! ## MD5 -/

theorem md5Rounds_succ (n : Nat) (m : List Word) (r : Md5Regs) :
    md5Rounds (n + 1) m r = md5Round m (md5Rounds n m r) n := by
  simp [md5Rounds, List.range_succ]

/-- The rotation of round i: four amounts for each group of 16 rounds, all below 32 (42_md5.md R153). -/
theorem md5S_eq {i : Nat} (hi : i < 64) : md5S i < 32 ∧ md5S i =
    ([[7, 12, 17, 22], [5, 9, 14, 20], [4, 11, 16, 23], [6, 10, 15, 21]].getD (i / 16) []).getD (i % 4) 0 := by
  revert i
  decide

/-- Settles O23: the sequences are the message words and the registers of `md5Rounds`, whose last round is
`md5Round`. -/
theorem md5CompressFollowsRounds : Obligations.Md5CompressFollowsRounds := by
  intro h block hlen
  obtain ⟨-, -, hwords⟩ := messageWordByteOrder block hlen
  generalize hregs : (fun i => md5Rounds i (leWords block) ⟨h.h0, h.h1, h.h2, h.h3⟩) = regs
  have hzero : regs 0 = ⟨h.h0, h.h1, h.h2, h.h3⟩ := by rw [← hregs]; rfl
  have hsucc : ∀ i, regs (i + 1) = md5Round (leWords block) (regs i) i := by
    rw [← hregs]
    exact fun i => md5Rounds_succ i _ _
  refine ⟨fun j => (leWords block).getD j 0, fun i => (regs i).a, fun i => (regs i).b, fun i => (regs i).c,
    fun i => (regs i).d, fun j hj => (hwords j hj).1, ?start, ?rounds, ?sum⟩
  case start => simp only [hzero, and_self]
  case rounds =>
    intro i hi f g t
    obtain ⟨hrot, hamount⟩ := md5S_eq hi
    rw [← hamount, ← rotl_eq_rotateLeft _ _ hrot]
    simp only [hsucc]
    exact ⟨rfl, rfl, rfl, rfl⟩
  case sum => rw [← hregs]; rfl

/-- The function of a round is that of its group of 16 (42_md5.md R155). -/
theorem md5F_eq_of_group (i : Nat) (x y z : Word) : md5F i x y z =
    if i / 16 = 0 then (x &&& y) ||| (~~~x &&& z)
    else if i / 16 = 1 then (x &&& z) ||| (y &&& ~~~z)
    else if i / 16 = 2 then x ^^^ y ^^^ z
    else y ^^^ (x ||| ~~~z) := by
  obtain h | h | h | h : i / 16 = 0 ∨ i / 16 = 1 ∨ i / 16 = 2 ∨ 3 ≤ i / 16 := by omega
  · rw [md5F, if_pos (by omega), if_pos h]
  · rw [md5F, if_neg (by omega), if_pos (by omega), if_neg (by omega), if_pos h]
  · rw [md5F, if_neg (by omega), if_neg (by omega), if_pos (by omega), if_neg (by omega), if_neg (by omega), if_pos h]
  · rw [md5F, if_neg (by omega), if_neg (by omega), if_neg (by omega), if_neg (by omega), if_neg (by omega),
      if_neg (by omega)]

/-- The numbers of a row of the schedule: its function is that of its group of 16 rounds, and its message index,
rotation and constant are those of the tables. -/
def md5RowMatches (row : Nat × Nat × Nat × Nat × Word) : Prop :=
  row.2.1 = row.1 / 16 ∧ md5G row.1 = row.2.2.1 ∧ md5S row.1 = row.2.2.2.1 ∧ md5K.getD row.1 0 = row.2.2.2.2

theorem md5F_of_rowMatches {row : Nat × Nat × Nat × Nat × Word} (h : md5RowMatches row) :
    md5G row.1 = row.2.2.1 ∧ md5S row.1 = row.2.2.2.1 ∧ md5K.getD row.1 0 = row.2.2.2.2 ∧
    ∀ x y z : Word, md5F row.1 x y z =
      if row.2.1 = 0 then (x &&& y) ||| (~~~x &&& z)
      else if row.2.1 = 1 then (x &&& z) ||| (y &&& ~~~z)
      else if row.2.1 = 2 then x ^^^ y ^^^ z
      else y ^^^ (x ||| ~~~z) := by
  obtain ⟨hgroup, hindex, hrot, hconst⟩ := h
  refine ⟨hindex, hrot, hconst, fun x y z => ?_⟩
  rw [hgroup]
  exact md5F_eq_of_group row.1 x y z

/-- Settles O22: the 64 rows match the tables, by evaluation, and a round's function is that of its group. -/
theorem md5RoundSchedule : Obligations.Md5RoundSchedule := by
  intro row hrow
  refine md5F_of_rowMatches ?_
  revert row
  unfold md5RowMatches
  decide

/-! ## SHA-1 -/

/-- The word SHA-1 adds to its schedule (43_sha1.md R182). -/
def sha1Next (ws : List Word) (t : Nat) : Word :=
  rotl (ws.getD (t - 3) 0 ^^^ ws.getD (t - 8) 0 ^^^ ws.getD (t - 14) 0 ^^^ ws.getD (t - 16) 0) 1

theorem sha1Next_looksBack : LooksBack sha1Next := by
  intro ws ws' t ht h
  rw [sha1Next, sha1Next, h _ (by omega), h _ (by omega), h _ (by omega), h _ (by omega)]

theorem sha1Schedule_eq_extendBy (block : List Byte) :
    sha1Schedule block = extendBy sha1Next (beWords block) 16 64 := rfl

/-- The first 16 words of the schedule are those of the block. -/
theorem sha1Schedule_getD_of_lt {block : List Byte} (hws : (beWords block).length = 16) {j : Nat} (hj : j < 16) :
    (sha1Schedule block).getD j 0 = (beWords block).getD j 0 := by
  rw [sha1Schedule_eq_extendBy, extendBy_getD_of_lt _ _ _ _ (by omega)]

theorem sha1Schedule_getD_of_ge {block : List Byte} (hws : (beWords block).length = 16) {t : Nat} (hlo : 16 ≤ t)
    (hhi : t < 80) : (sha1Schedule block).getD t 0 = sha1Next (sha1Schedule block) t := by
  rw [sha1Schedule_eq_extendBy]
  exact extendBy_getD_eq_next sha1Next_looksBack hws hlo hhi

theorem sha1Rounds_succ (n : Nat) (w : List Word) (r : Sha1Regs) :
    sha1Rounds (n + 1) w r = sha1Round w (sha1Rounds n w r) n := by
  simp [sha1Rounds, List.range_succ]

/-- Settles O24: the sequences are the schedule and the registers of `sha1Rounds`, whose last round is
`sha1Round`. -/
theorem sha1CompressFollowsRounds : Obligations.Sha1CompressFollowsRounds := by
  intro h block hlen
  obtain ⟨-, hws, hwords⟩ := messageWordByteOrder block hlen
  generalize hregs : (fun i => sha1Rounds i (sha1Schedule block) ⟨h.h0, h.h1, h.h2, h.h3, h.h4⟩) = regs
  have hzero : regs 0 = ⟨h.h0, h.h1, h.h2, h.h3, h.h4⟩ := by rw [← hregs]; rfl
  have hsucc : ∀ i, regs (i + 1) = sha1Round (sha1Schedule block) (regs i) i := by
    rw [← hregs]
    exact fun i => sha1Rounds_succ i _ _
  refine ⟨fun t => (sha1Schedule block).getD t 0, fun t => (regs t).a, fun t => (regs t).b, fun t => (regs t).c,
    fun t => (regs t).d, fun t => (regs t).e, fun j hj => ?words, fun t hlo hhi => ?schedule, ?start,
    fun t ht => ?rounds, ?sum⟩
  case words =>
    exact (congrArg BitVec.toNat (sha1Schedule_getD_of_lt hws hj)).trans (hwords j hj).2
  case schedule =>
    exact (sha1Schedule_getD_of_ge hws hlo hhi).trans (rotl_eq_rotateLeft _ _ (by decide))
  case start => simp only [hzero, and_self]
  case rounds =>
    intro f k
    rw [← rotl_eq_rotateLeft _ _ (by decide), ← rotl_eq_rotateLeft _ _ (by decide)]
    simp only [hsucc]
    exact ⟨rfl, rfl, rfl, rfl, rfl⟩
  case sum => rw [← hregs]; rfl

/-! ## SHA-256 -/

/-- The word SHA-256 adds to its schedule (44_sha256.md R204). -/
def sha256Next (ws : List Word) (t : Nat) : Word :=
  ws.getD (t - 16) 0 + sha256SmallS0 (ws.getD (t - 15) 0) + ws.getD (t - 7) 0 + sha256SmallS1 (ws.getD (t - 2) 0)

theorem sha256Next_looksBack : LooksBack sha256Next := by
  intro ws ws' t ht h
  rw [sha256Next, sha256Next, h _ (by omega), h _ (by omega), h _ (by omega), h _ (by omega)]

theorem sha256Schedule_eq_extendBy (block : List Byte) :
    sha256Schedule block = extendBy sha256Next (beWords block) 16 48 := rfl

/-- The first 16 words of the schedule are those of the block. -/
theorem sha256Schedule_getD_of_lt {block : List Byte} (hws : (beWords block).length = 16) {j : Nat} (hj : j < 16) :
    (sha256Schedule block).getD j 0 = (beWords block).getD j 0 := by
  rw [sha256Schedule_eq_extendBy, extendBy_getD_of_lt _ _ _ _ (by omega)]

theorem sha256Schedule_getD_of_ge {block : List Byte} (hws : (beWords block).length = 16) {t : Nat} (hlo : 16 ≤ t)
    (hhi : t < 64) : (sha256Schedule block).getD t 0 = sha256Next (sha256Schedule block) t := by
  rw [sha256Schedule_eq_extendBy]
  exact extendBy_getD_eq_next sha256Next_looksBack hws hlo hhi

theorem sha256SmallS0_eq (x : Word) : sha256SmallS0 x = x.rotateRight 7 ^^^ x.rotateRight 18 ^^^ (x >>> 3) := by
  rw [sha256SmallS0, rotr_eq_rotateRight _ _ (by decide) (by decide), rotr_eq_rotateRight _ _ (by decide) (by decide)]

theorem sha256SmallS1_eq (x : Word) : sha256SmallS1 x = x.rotateRight 17 ^^^ x.rotateRight 19 ^^^ (x >>> 10) := by
  rw [sha256SmallS1, rotr_eq_rotateRight _ _ (by decide) (by decide), rotr_eq_rotateRight _ _ (by decide) (by decide)]

theorem sha256BigS0_eq (a : Word) : sha256BigS0 a = a.rotateRight 2 ^^^ a.rotateRight 13 ^^^ a.rotateRight 22 := by
  rw [sha256BigS0, rotr_eq_rotateRight _ _ (by decide) (by decide), rotr_eq_rotateRight _ _ (by decide) (by decide),
    rotr_eq_rotateRight _ _ (by decide) (by decide)]

theorem sha256BigS1_eq (e : Word) : sha256BigS1 e = e.rotateRight 6 ^^^ e.rotateRight 11 ^^^ e.rotateRight 25 := by
  rw [sha256BigS1, rotr_eq_rotateRight _ _ (by decide) (by decide), rotr_eq_rotateRight _ _ (by decide) (by decide),
    rotr_eq_rotateRight _ _ (by decide) (by decide)]

theorem sha256Rounds_succ (n : Nat) (w : List Word) (r : Sha256Regs) :
    sha256Rounds (n + 1) w r = sha256Round w (sha256Rounds n w r) n := by
  simp [sha256Rounds, List.range_succ]

/-- Settles O25: the sequences are the schedule and the registers of `sha256Rounds`, whose last round is
`sha256Round`. -/
theorem sha256CompressFollowsRounds : Obligations.Sha256CompressFollowsRounds := by
  intro r block hlen
  obtain ⟨-, hws, hwords⟩ := messageWordByteOrder block hlen
  generalize hregs : (fun i => sha256Rounds i (sha256Schedule block)
    ⟨r.h0, r.h1, r.h2, r.h3, r.h4, r.h5, r.h6, r.h7⟩) = regs
  have hzero : regs 0 = ⟨r.h0, r.h1, r.h2, r.h3, r.h4, r.h5, r.h6, r.h7⟩ := by rw [← hregs]; rfl
  have hsucc : ∀ i, regs (i + 1) = sha256Round (sha256Schedule block) (regs i) i := by
    rw [← hregs]
    exact fun i => sha256Rounds_succ i _ _
  refine ⟨fun t => (sha256Schedule block).getD t 0, fun t => (regs t).a, fun t => (regs t).b, fun t => (regs t).c,
    fun t => (regs t).d, fun t => (regs t).e, fun t => (regs t).f, fun t => (regs t).g, fun t => (regs t).h,
    fun j hj => ?words, fun t hlo hhi => ?schedule, ?start, fun t ht => ?rounds, ?sum⟩
  case words =>
    exact (congrArg BitVec.toNat (sha256Schedule_getD_of_lt hws hj)).trans (hwords j hj).2
  case schedule =>
    intro x y
    rw [← sha256SmallS0_eq, ← sha256SmallS1_eq]
    exact sha256Schedule_getD_of_ge hws hlo hhi
  case start => simp only [hzero, and_self]
  case rounds =>
    intro s1 ch temp1 s0 maj
    have hs1 : s1 = sha256BigS1 (regs t).e := (sha256BigS1_eq _).symm
    have hs0 : s0 = sha256BigS0 (regs t).a := (sha256BigS0_eq _).symm
    simp only [hsucc, temp1, hs0, hs1]
    exact ⟨rfl, rfl, rfl, rfl, rfl, rfl, rfl, rfl⟩
  case sum => rw [← hregs]; rfl

/-! ## The constants, and the words a compression does not use -/

/-- A word under the integer part `c` of a root is the first 32 bits of the root's fractional part. -/
theorem exists_root_of_integerPart {xs : List Nat} {f : Nat → Word} {e n : Nat}
    (h : ∀ t < n, ∃ c < 7, (c * 2 ^ 32 + (f t).toNat) ^ e ≤ xs.getD t 0 * 2 ^ (32 * e) ∧
      xs.getD t 0 * 2 ^ (32 * e) < (c * 2 ^ 32 + (f t).toNat + 1) ^ e) :
    ∀ t < n, ∃ r : Nat, r ^ e ≤ xs.getD t 0 * 2 ^ (32 * e) ∧ xs.getD t 0 * 2 ^ (32 * e) < (r + 1) ^ e ∧
      (f t).toNat = r % 2 ^ 32 := by
  intro t ht
  obtain ⟨c, -, hle, hlt⟩ := h t ht
  refine ⟨c * 2 ^ 32 + (f t).toNat, hle, hlt, ?_⟩
  rw [Nat.mul_add_mod_self_right, Nat.mod_eq_of_lt (f t).isLt]

/-- Settles O26: each constant with the integer part of its root put above it (`exists_root_of_integerPart`), checked
by evaluation. -/
theorem constantsAreRoots : Obligations.ConstantsAreRoots := by
  unfold Obligations.ConstantsAreRoots
  dsimp only
  refine ⟨rfl, ?cubeRoots, ?squareRoots, ?sha1⟩
  case cubeRoots =>
    exact exists_root_of_integerPart (f := fun t => sha256K.getD t 0) (e := 3) (by decide)
  case squareRoots =>
    exact exists_root_of_integerPart (f := fun t => sha256IV.get t) (e := 2) (by decide)
  case sha1 => decide

/-- Settles O27: the registers of MD5 and SHA-1 start from the words they use, and the others are passed on. -/
theorem unusedHashWordsPassThrough : Obligations.UnusedHashWordsPassThrough :=
  ⟨fun _ _ _ _ _ _ => rfl, fun _ _ _ _ _ => rfl⟩

end Sys2Proof.Proofs
end

section
/-! The hex encoder: every character of the HEX buffer (45_hex_encoder.md R230 to R234). -/

namespace Sys2Proof.Proofs

open Sys2Proof.Machine Sys2Proof.Laws

/-- Where every element gives `n` items, item `n i + k` is item `k` of element `i`. -/
theorem getD_flatMap_of_length {α β : Type} {f : α → List β} {n : Nat} (hf : ∀ a, (f a).length = n) (a₀ : α) (b₀ : β)
    {l : List α} {i k : Nat} (hi : i < l.length) (hk : k < n) :
    (l.flatMap f).getD (n * i + k) b₀ = (f (l.getD i a₀)).getD k b₀ := by
  induction l generalizing i with
  | nil => cases hi
  | cons a l ih =>
    rw [List.flatMap_cons]
    cases i with
    | zero => rw [Nat.mul_zero, Nat.zero_add, List.getD_append _ _ _ _ (by rwa [hf]), List.getD_cons_zero]
    | succ i =>
      have hpos : n * (i + 1) + k - n = n * i + k := by rw [Nat.mul_add_one]; omega
      rw [List.getD_append_right _ _ _ _ (by rw [hf, Nat.mul_add_one]; omega), hf, hpos, List.getD_cons_succ]
      exact ih (by simpa using hi)

/-! ## Digits -/

/-- The ASCII code of a digit (45_hex_encoder.md R231): 16 values, by evaluation. -/
theorem hexDigit_toNat : ∀ v : BitVec 4,
    (hexDigit v).toNat = if v.toNat ≤ 9 then 0x30 + v.toNat else 0x61 + (v.toNat - 10) := by
  decide

theorem hexDigit_lowercase (v : BitVec 4) :
    (0x30 ≤ (hexDigit v).toNat ∧ (hexDigit v).toNat ≤ 0x39) ∨
    (0x61 ≤ (hexDigit v).toNat ∧ (hexDigit v).toNat ≤ 0x66) := by
  have hv := v.isLt
  rw [hexDigit_toNat]
  split_ifs
  · omega
  · omega

theorem highNibble_toNat (b : Byte) : (b.extractLsb' 4 4).toNat = b.toNat / 16 := by
  rw [BitVec.extractLsb'_toNat, Nat.shiftRight_eq_div_pow]
  omega

theorem lowNibble_toNat (b : Byte) : (b.extractLsb' 0 4).toNat = b.toNat % 16 := by
  rw [BitVec.extractLsb'_toNat, Nat.shiftRight_zero]

/-- The characters of byte j: its high nibble, then its low one (45_hex_encoder.md R232). -/
theorem hexEncode_getD {d : List Byte} {j k : Nat} (hj : j < d.length) (hk : k < 2) :
    (hexEncode d).getD (2 * j + k) 0 =
      [hexDigit ((d.getD j 0).extractLsb' 4 4), hexDigit ((d.getD j 0).extractLsb' 0 4)].getD k 0 :=
  getD_flatMap_of_length (f := fun b : Byte => [hexDigit (b.extractLsb' 4 4), hexDigit (b.extractLsb' 0 4)])
    (fun _ => rfl) 0 0 hj hk

theorem mem_hexEncode {d : List Byte} {c : Byte} (h : c ∈ hexEncode d) : ∃ v, c = hexDigit v := by
  rw [hexEncode, List.mem_flatMap] at h
  obtain ⟨b, -, hc⟩ := h
  rw [List.mem_pair] at hc
  obtain rfl | rfl := hc
  · exact ⟨_, rfl⟩
  · exact ⟨_, rfl⟩

/-! ## The digest bytes -/

theorem le32Bytes_getD_toNat (w : Word) {k : Nat} (hk : k < 4) :
    ((le32Bytes w).getD k 0).toNat = w.toNat / 256 ^ k % 256 := by
  have hbyte : (le32Bytes w).getD k 0 = w.extractLsb' (8 * k) 8 := by interval_cases k <;> rfl
  rw [hbyte, BitVec.extractLsb'_toNat, Nat.shiftRight_eq_div_pow, pow_mul]
  rfl

theorem be32Bytes_getD_toNat (w : Word) {k : Nat} (hk : k < 4) :
    ((be32Bytes w).getD k 0).toNat = w.toNat / 256 ^ (3 - k) % 256 := by
  have hbyte : (be32Bytes w).getD k 0 = (le32Bytes w).getD (3 - k) 0 := by interval_cases k <;> rfl
  rw [hbyte, le32Bytes_getD_toNat w (by omega)]

/-- Byte j of the digest is byte `j % 4` of word `j / 4`, in the order of the algorithm (45_hex_encoder.md R230). -/
theorem serialize_getD_toNat (alg : Alg) (h : HashRegs) {j : Nat} (hj : j < dl alg) :
    ((serialize alg h).getD j 0).toNat =
      (h.toList.getD (j / 4) 0).toNat / 256 ^ (if alg = .md5 then j % 4 else 3 - j % 4) % 256 := by
  have hk : j % 4 < 4 := by omega
  have hbytes : ∀ (f : Word → List Byte) (n : Nat), (∀ w, (f w).length = 4) → j < 4 * n → n ≤ 8 →
      ((h.toList.take n).flatMap f).getD j 0 = (f (h.toList.getD (j / 4) 0)).getD (j % 4) 0 := by
    intro f n hf hjn hn
    have hword : j / 4 < (h.toList.take n).length := by
      rw [List.length_take, show h.toList.length = 8 from rfl]
      omega
    have hget : (h.toList.take n).getD (j / 4) 0 = h.toList.getD (j / 4) 0 := by
      rw [List.getD_eq_getElem _ 0 hword, List.getElem_take, List.getD_eq_getElem]
    rw [← hget, ← getD_flatMap_of_length hf 0 0 hword hk, Nat.div_add_mod]
  cases alg with
  | md5 => rw [serialize, hbytes le32Bytes 4 (fun _ => rfl) hj (by decide), if_pos rfl, le32Bytes_getD_toNat _ hk]
  | sha1 =>
    rw [serialize, hbytes be32Bytes 5 (fun _ => rfl) hj (by decide), if_neg (by decide), be32Bytes_getD_toNat _ hk]
  | sha256 =>
    rw [serialize, hbytes be32Bytes 8 (fun _ => rfl) hj (by decide), if_neg (by decide), be32Bytes_getD_toNat _ hk]

/-! ## The buffer -/

theorem hexBuffer_getD_digit (alg : Alg) (h : HashRegs) {j k : Nat} (hj : j < dl alg) (hk : k < 2) :
    (hexBuffer alg h).getD (2 * j + k) 0 = (hexEncode (serialize alg h)).getD (2 * j + k) 0 := by
  rw [hexBuffer, List.getD_append _ _ _ _ (by rw [hexEncode_length, serialize_length]; omega)]

theorem hexBuffer_getD_zero (alg : Alg) (h : HashRegs) {k : Nat} (hlo : 2 * dl alg ≤ k) (hhi : k < 64) :
    (hexBuffer alg h).getD k 1 = 0 := by
  have hlen : (hexEncode (serialize alg h)).length = 2 * dl alg := by rw [hexEncode_length, serialize_length]
  rw [hexBuffer, List.getD_append_right _ _ _ _ (by omega), hlen, List.getD_replicate _ (by omega)]

/-- Settles O34: the characters of byte j of the digest (`hexEncode_getD`), that byte as a number
(`serialize_getD_toNat`), and the bytes after the digest. -/
theorem hexBufferCharacters : Obligations.HexBufferCharacters := by
  intro alg h digit words len
  have hlen : len = dl alg := by cases alg <;> rfl
  rw [hlen]
  refine ⟨hexBuffer_length alg h, fun j hj => ?_, fun k hlo hhi => hexBuffer_getD_zero alg h hlo hhi⟩
  intro shift b
  have hbyte : ((serialize alg h).getD j 0).toNat = b := serialize_getD_toNat alg h hj
  have hj' : j < (serialize alg h).length := by rwa [serialize_length]
  constructor
  · rw [← Nat.add_zero (2 * j), hexBuffer_getD_digit alg h hj (by decide), hexEncode_getD hj' (by decide),
      List.getD_cons_zero, hexDigit_toNat, highNibble_toNat, hbyte]
  · rw [hexBuffer_getD_digit alg h hj (by decide), hexEncode_getD hj' (by decide), List.getD_cons_succ,
      List.getD_cons_zero, hexDigit_toNat, lowNibble_toNat, hbyte]

/-- Settles O35: two characters per digest byte, each of them a digit. -/
theorem hexCharactersLowercase : Obligations.HexCharactersLowercase := by
  intro alg m
  constructor
  · rw [digest, hexEncode_length, serialize_length]
    cases alg <;> rfl
  · intro c hc
    obtain ⟨v, rfl⟩ := mem_hexEncode hc
    exact hexDigit_lowercase v

end Sys2Proof.Proofs
end

section
/-! The digest sequence law: the host's sequence of commands against the whole-message engine (40_commands.md R110,
41_padder.md R135). -/

namespace Sys2Proof.Proofs

open Sys2Proof.Machine Sys2Proof.Laws

/-! ## The blocks of the padded message -/

@[simp] theorem blocksOf_length (k : Nat) (m : List Byte) : (blocksOf k m).length = k := by
  induction k generalizing m with
  | zero => rfl
  | succ k ih => rw [blocksOf, List.length_cons, ih]

theorem length_of_mem_blocksOf {k : Nat} {m b : List Byte} (h : 64 * k ≤ m.length) (hb : b ∈ blocksOf k m) :
    b.length = 64 := by
  induction k generalizing m with
  | zero => cases hb
  | succ k ih =>
    rw [blocksOf, List.mem_cons] at hb
    obtain rfl | hb := hb
    · rw [List.length_take]
      omega
    · exact ih (by rw [List.length_drop]; omega) hb

theorem blocksOf_append {q p : Nat} {xs : List Byte} (ys : List Byte) (hxs : xs.length = 64 * q) :
    blocksOf (q + p) (xs ++ ys) = blocksOf q xs ++ blocksOf p ys := by
  induction q generalizing xs with
  | zero =>
    obtain rfl := List.length_eq_zero_iff.mp hxs
    rw [Nat.zero_add, blocksOf, List.nil_append, List.nil_append]
  | succ q ih =>
    have hle : 64 ≤ xs.length := by omega
    rw [Nat.add_right_comm, blocksOf, blocksOf, List.take_append_of_le_length hle, List.drop_append_of_le_length hle,
      ih (by rw [List.length_drop]; omega), List.cons_append]

theorem blocksOf_take (q : Nat) (m : List Byte) : blocksOf q (m.take (64 * q)) = blocksOf q m := by
  induction q generalizing m with
  | zero => rfl
  | succ q ih =>
    have hsize : 64 * (q + 1) = 64 + 64 * q := by omega
    rw [blocksOf, blocksOf, hsize, List.take_take, Nat.min_eq_left (by omega), List.drop_take,
      Nat.add_sub_cancel_left, ih]

theorem blocksOf_flatten {bs : List (List Byte)} (h : ∀ b ∈ bs, b.length = 64) :
    blocksOf bs.length bs.flatten = bs := by
  induction bs with
  | nil => rfl
  | cons b bs ih =>
    have hb : b.length = 64 := h b List.mem_cons_self
    rw [List.length_cons, blocksOf, List.flatten_cons, List.take_left' hb, List.drop_left' hb,
      ih fun c hc => h c (List.mem_cons_of_mem b hc)]

/-- The blocks of the padded message are the message's full blocks and then those of its tail (41_padder.md R135). -/
theorem blocksOf_pad (alg : Alg) (m : List Byte) :
    blocksOf ((pad alg m).length / 64) (pad alg m) =
      blocksOf (m.length / 64) m ++ padTail alg (m.drop (64 * (m.length / 64))) m.length := by
  obtain ⟨hcount, htail⟩ := blockCountOfMessage alg m
  have htlen := length_drop_blocks m
  have hsize : (m.take (64 * (m.length / 64))).length = 64 * (m.length / 64) := by
    rw [List.length_take]
    omega
  rw [hcount, Nat.mul_div_cancel_left _ (by decide), ← htail]
  conv_lhs => rw [paddingSplitsAtBlocks alg m]
  rw [blocksOf_append _ hsize, blocksOf_take,
    blocksOf_flatten ((tailPadderBlocks alg _ m.length).2.2 (by omega))]

/-! ## Running one command -/

/-- The state in which a latched word runs: pending, with what is still to come and the last answer left open. -/
def pending (w : Word) (rest : List Input) (r : Response) (s : State) : State :=
  { s with busy := true, cmdl := w, inputs := rest, response := r }

/-- `run X` issues, polls, completes and sees BUSY = 0; where the word leads from `s` to `u` whatever the host does, so
does the run, with the command retired. -/
theorem runsTo_runWith (polls : Nat) {w : Word} {s u : State} (hb : s.busy = false)
    (h : ∀ rest r, runWord w (pending w rest r s) = .next (pending w rest r u)) :
    ∃ r, RunsTo (runWith polls w) s { u with busy := false, cmdl := 0, response := r } := by
  have hissue : RunsTo [wr32 0x00 w] s (pending w [] .written s) :=
    runsTo_cons (t := pending w [] .written s)
      (fun rest => step_issue (s := { s with inputs := wr32 0x00 w :: rest }) rfl hb) (runsTo_nil _)
  obtain ⟨r, hpolls⟩ := runsTo_polls polls (pending w [] .written s)
  have hcomplete : RunsTo [.complete] (pending w [] r s) (retire (pending w [] r u)) :=
    runsTo_cons (t := retire (pending w [] r u))
      (fun rest => (step_complete (s := pending w (.complete :: rest) r s) rfl).trans
        (complete_of_runWord (s := pending w rest r s) (t := pending w rest r u) rfl (h rest r))) (runsTo_nil _)
  have hread : RunsTo [rd32 0x04] (retire (pending w [] r u))
      { u with busy := false, cmdl := 0, response := .data .word (statusWord (retire (pending w [] r u))) } :=
    fun rest => core_run_one (step_rd32_status (retire (pending w [] r u)) rest)
  exact ⟨_, runsTo_append (runsTo_append hissue hpolls) (runsTo_append hcomplete hread)⟩

/-! ## The phases of the sequence -/

/-- In the given phase of a message, with no error and no command pending: `n` bytes absorbed, and `h` is the hash
state. -/
structure InMessage (phase : Phase) (alg : Alg) (h : HashRegs) (n : Nat) (s : State) : Prop where
  busy : s.busy = false
  wf : s.mem.wf = true
  phase : s.phase = phase
  alg : s.alg = alg
  err : s.err = none
  hash : s.hash = h
  mlen : s.mlen.toNat = n

/-- INIT starts the message from any idle state (40_commands.md R103). -/
theorem runsTo_init (polls : Nat) (alg : Alg) {s : State} (hb : s.busy = false) (hwf : s.mem.wf = true) :
    ∃ t, RunsTo (runWith polls (initWord alg)) s t ∧ InMessage .absorb alg (iv alg) 0 t := by
  have hrun : ∀ rest r, runWord (initWord alg) (pending (initWord alg) rest r s) =
      .next (pending (initWord alg) rest r (initWith alg s)) := by
    intro rest r
    rw [runWord_initWord]
    simp only [initWith, pending]
  obtain ⟨r, hr⟩ := runsTo_runWith polls hb hrun
  exact ⟨_, hr, ⟨rfl, by rw [initWith_mem]; exact wf_writeHex _ hwf, rfl, rfl, rfl, rfl, rfl⟩⟩

/-- Bytes written to BLK while absorbing: they stand at its start, and nothing else of the message changes. -/
theorem runsTo_write {alg : Alg} {h : HashRegs} {n : Nat} {s : State} (ha : InMessage .absorb alg h n s)
    {bs : List Byte} (hbs : bs.length ≤ 64) :
    ∃ t, RunsTo (blkFrom 0 bs) s t ∧ InMessage .absorb alg h n t ∧ t.blk.take bs.length = bs := by
  obtain ⟨r, hr⟩ := runsTo_blkFrom ha.busy (i := 0) (bs := bs) (by omega)
  refine ⟨_, hr, ⟨ha.busy, wf_writeBytes ha.wf _ _, ha.phase, ha.alg, ha.err, ha.hash, ha.mlen⟩, ?_⟩
  rw [State.blk, readBytes_take _ _ _ _ hbs]
  exact readBytes_writeBytes ha.wf blkBase bs

/-- COMPRESS absorbs the block in BLK (40_commands.md R107). -/
theorem runsTo_compress (polls : Nat) {alg : Alg} {h : HashRegs} {n : Nat} {s : State}
    (ha : InMessage .absorb alg h n s) (hn : n + 64 ≤ msgMax) :
    ∃ t, RunsTo (runWith polls 0x00000002) s t ∧ InMessage .absorb alg (compressBlock alg h s.blk) (n + 64) t := by
  have hrun : ∀ rest r, runWord 0x00000002 (pending 0x00000002 rest r s) =
      .next (pending 0x00000002 rest r (absorbBlock s)) := by
    intro rest r
    have he : (pending 0x00000002 rest r s).err = none := ha.err
    have hp : (pending 0x00000002 rest r s).phase = .absorb := ha.phase
    have hl : ¬ msgMax < (pending 0x00000002 rest r s).mlen.toNat + 64 := by
      show ¬ msgMax < s.mlen.toNat + 64
      rw [ha.mlen]
      omega
    rw [runWord_of_decode_cmd (i := .compress) (by decide), exec_compress_eq, if_pos he, if_pos hp, if_neg hl]
    rfl
  obtain ⟨r, hr⟩ := runsTo_runWith polls ha.busy hrun
  refine ⟨_, hr, ⟨rfl, ha.wf, ha.phase, ha.alg, ha.err, ?_, ?_⟩⟩
  · show compressBlock s.alg s.hash (blockOperand s) = _
    rw [ha.alg, ha.hash, blockOperand]
  · show (s.mlen + 64).toNat = _
    unfold msgMax at hn
    rw [BitVec.toNat_add, ha.mlen, show (64 : DWord).toNat = 64 from rfl, Nat.mod_eq_of_lt (by omega)]

/-- Each full block is written and compressed, in order. -/
theorem runsTo_blocks (polls : Nat) {alg : Alg} {h : HashRegs} {n : Nat} {s : State} (ha : InMessage .absorb alg h n s)
    {bs : List (List Byte)} (hbs : ∀ b ∈ bs, b.length = 64) (hn : n + 64 * bs.length ≤ msgMax) :
    ∃ t, RunsTo (bs.flatMap fun b => blkFrom 0 b ++ runWith polls 0x00000002) s t ∧
      InMessage .absorb alg (bs.foldl (compressBlock alg) h) (n + 64 * bs.length) t := by
  induction bs generalizing h n s with
  | nil => exact ⟨s, runsTo_nil s, ha⟩
  | cons b bs ih =>
    have hb : b.length = 64 := hbs b List.mem_cons_self
    rw [List.length_cons] at hn
    obtain ⟨t, ht, hat, hblk⟩ := runsTo_write ha hb.le
    rw [hb, List.take_of_length_le (blk_length t).le] at hblk
    obtain ⟨u, hu, hau⟩ := runsTo_compress polls hat (by omega)
    rw [hblk] at hau
    obtain ⟨v, hv, hav⟩ := ih hau (fun c hc => hbs c (List.mem_cons_of_mem b hc)) (by omega)
    refine ⟨v, ?_, ?_⟩
    · rw [List.flatMap_cons]
      exact runsTo_append (runsTo_append ht hu) hv
    · rw [List.foldl_cons, List.length_cons, show n + 64 * (bs.length + 1) = n + 64 + 64 * bs.length by omega]
      exact hav

/-- FINAL absorbs the padded tail in BLK and ends the message (40_commands.md R108). -/
theorem runsTo_final (polls : Nat) {alg : Alg} {h : HashRegs} {n k : Nat} {s : State} (ha : InMessage .absorb alg h n s)
    (hk : k ≤ 63) (hn : n + k ≤ msgMax) :
    ∃ t, RunsTo (runWith polls (encode (.final k))) s t ∧
      InMessage .done alg ((padTail alg (s.blk.take k) (n + k)).foldl (compressBlock alg) h) (n + k) t := by
  have hrun : ∀ rest r, runWord (encode (.final k)) (pending (encode (.final k)) rest r s) =
      .next (pending (encode (.final k)) rest r (absorbTail k s)) := by
    intro rest r
    have he : (pending (encode (.final k)) rest r s).err = none := ha.err
    have hp : (pending (encode (.final k)) rest r s).phase = .absorb := ha.phase
    rw [runWord_of_decode_cmd (decode_encode_final hk), exec_final_eq, if_pos he, if_pos hp]
    rfl
  obtain ⟨r, hr⟩ := runsTo_runWith polls ha.busy hrun
  refine ⟨_, hr, ⟨rfl, ha.wf, rfl, ha.alg, ha.err, ?_, ?_⟩⟩
  · show (absorbTail k s).hash = _
    rw [absorbTail_hash, ha.alg, ha.hash, ha.mlen, tailOperand]
  · show (absorbTail k s).mlen.toNat = _
    rw [absorbTail_mlen_toNat (by rw [ha.mlen]; exact hn), ha.mlen]

/-- HEX writes the digest (40_commands.md R109). -/
theorem runsTo_hex (polls : Nat) {alg : Alg} {h : HashRegs} {n : Nat} {s : State} (hf : InMessage .done alg h n s) :
    ∃ t, RunsTo (runWith polls 0x00000004) s t ∧ InMessage .done alg h n t ∧ t.hexv = true ∧
      t.hex = hexBuffer alg h := by
  have hrun : ∀ rest r, runWord 0x00000004 (pending 0x00000004 rest r s) =
      .next (pending 0x00000004 rest r (writeDigest s)) := by
    intro rest r
    have he : (pending 0x00000004 rest r s).err = none := hf.err
    have hp : ¬ (pending 0x00000004 rest r s).phase = .idle := by
      show ¬ s.phase = .idle
      simp [hf.phase]
    rw [runWord_of_decode_cmd (i := .hex) (by decide), exec_hex_eq, if_pos he, if_neg hp]
    rfl
  obtain ⟨r, hr⟩ := runsTo_runWith polls hf.busy hrun
  refine ⟨_, hr, ⟨rfl, wf_writeHex _ hf.wf, hf.phase, hf.alg, hf.err, hf.hash, hf.mlen⟩, rfl, ?_⟩
  rw [← hf.alg, ← hf.hash]
  exact hex_writeHex _ hf.wf (hexBuffer_length _ _)

/-! ## The law -/

theorem digestRun_eq (polls : Nat) (alg : Alg) (m : List Byte) : digestRun polls alg m =
    runWith polls (initWord alg) ++
    ((blocksOf (m.length / 64) m).flatMap (fun b => blkFrom 0 b ++ runWith polls 0x00000002) ++
    (blkFrom 0 (m.drop (64 * (m.length / 64))) ++
    (runWith polls (encode (.final (m.length % 64))) ++ runWith polls 0x00000004))) := by
  rw [digestRun, encode, List.append_assoc, List.append_assoc, List.append_assoc]

/-- The host's sequence ends the message with the engine's hash state and its digest in HEX. -/
theorem runsTo_digestRun (polls : Nat) (alg : Alg) {m : List Byte} (hm : m.length ≤ msgMax) {s : State}
    (hb : s.busy = false) (hwf : s.mem.wf = true) :
    ∃ t, RunsTo (digestRun polls alg m) s t ∧ InMessage .done alg (engineState alg m) m.length t ∧ t.hexv = true ∧
      t.hex = hexBuffer alg (engineState alg m) := by
  have htlen := length_drop_blocks m
  have hfull : 64 * (m.length / 64) ≤ m.length := Nat.mul_div_le m.length 64
  obtain ⟨s₁, h₁, ha₁⟩ := runsTo_init polls alg hb hwf
  obtain ⟨s₂, h₂, ha₂⟩ := runsTo_blocks polls ha₁ (bs := blocksOf (m.length / 64) m)
    (fun b hb => length_of_mem_blocksOf hfull hb) (by rw [blocksOf_length]; omega)
  obtain ⟨s₃, h₃, ha₃, hblk⟩ := runsTo_write ha₂ (bs := m.drop (64 * (m.length / 64))) (by omega)
  obtain ⟨s₄, h₄, hf₄⟩ := runsTo_final polls ha₃ (k := m.length % 64) (by omega)
    (by rw [blocksOf_length]; omega)
  have hsum : 0 + 64 * (m.length / 64) + m.length % 64 = m.length := by omega
  rw [← htlen, hblk, htlen, blocksOf_length, hsum, ← List.foldl_append, ← blocksOf_pad, ← engineState] at hf₄
  obtain ⟨t, h₅, hf₅, hv, hx⟩ := runsTo_hex polls hf₄
  rw [digestRun_eq]
  exact ⟨t, runsTo_append h₁ (runsTo_append h₂ (runsTo_append h₃ (runsTo_append h₄ h₅))), hf₅, hv, hx⟩

/-- No compression of the engine writes a word the algorithm does not use (10_state.md R22). -/
theorem engineState_unused (alg : Alg) (m : List Byte) : ∀ x ∈ (engineState alg m).toList.drop (nw alg), x = 0 := by
  rw [engineState, foldl_compressBlock_unused]
  exact iv_unused alg

/-- Settles O51: the sequence phase by phase (`runsTo_digestRun`), its blocks being those of the padded message
(`blocksOf_pad`). -/
theorem digestSequenceLaw : Obligations.DigestSequenceLaw := by
  intro alg m polls s rest hwf hb hm hin
  obtain ⟨t, hrun, hf, hv, hx⟩ := runsTo_digestRun polls alg hm hb hwf
  refine ⟨_, run_of_runsTo hrun hin, hf.phase, hf.alg, hf.err, hv, hf.mlen, hf.hash, ?_, hx, hf.busy, rfl⟩
  show ∀ x ∈ t.hash.toList.drop (nw alg), x = 0
  rw [hf.hash]
  exact engineState_unused alg m

end Sys2Proof.Proofs
end
